-- ==== Sys2Proof/Word.lean ====
section
/-! DEFINITION. The words of the block: a byte (spec R8), and the 16-bit value that two payload bytes
make for the host (spec R46). All other quantities of the spec are natural numbers (R8), or, for the
relative-move delta alone, integers (R160). -/

namespace Sys2Proof

/-- An unsigned 8-bit value, 0 to 255 (R8). -/
abbrev Byte := BitVec 8

/-- A 16-bit value of the host: a position, a speed, a raw register value (R46). -/
abbrev Half := BitVec 16

end Sys2Proof
end

