-- ==== Sys2Proof/Machine/Checksum.lean ====
section
/-! DEFINITION. The checksum generator CSUM (spec `40_checksum.md`). -/

namespace Sys2Proof.Machine

/-- The sum of the bytes as a natural number (R90, R93 (a)). -/
def byteSum : List Byte → Nat
  | [] => 0
  | b :: s => b.toNat + byteSum s

/-- `CSUM(s)`: the 8-bit complement of the mod-256 sum (R90). -/
def csum (s : List Byte) : Byte := ~~~ (BitVec.ofNat 8 (byteSum s % 256))

/-- The accumulator loop of the byte-serial form, from accumulator `acc` (R91). -/
def csumLoop : Byte → List Byte → Byte
  | acc, [] => acc
  | acc, b :: s => csumLoop (acc + b) s

/-- The byte-serial form of CSUM (R91): an 8-bit accumulator, carry discarded, complemented at the end. -/
def csumSerial (s : List Byte) : Byte := ~~~ (csumLoop 0 s)

end Sys2Proof.Machine
end

