-- ==== Sys2Proof/Syntax.lean ====
section
/-! DEFINITION. The instructions: one constructor per row of `spec/opcode_table.json`. -/

namespace Sys2Proof

/-- PING, READ and WRITE are the three kinds of the ENC command (spec R24, R77); REPLY is the DEC
command, which parses the reply frame standing in BUF (R120). A field a kind does not use does not
exist (R24). -/
inductive Instr where
  /-- `ENC(Ping(id))` (R102). -/
  | ping (id : Byte)
  /-- `ENC(Read(id, addr, rlen))` (R103). -/
  | read (id addr rlen : Byte)
  /-- `ENC(Write(id, addr, pay))` (R104); `pay` is PAY[0..L), an operand and so disjoint from BUF (R23). -/
  | write (id addr : Byte) (pay : List Byte)
  /-- `DEC(n)`, `n` the number of received bytes (R24, R120). The reply's bytes are in BUF: log entry 6. -/
  | reply (n : Nat)
  deriving DecidableEq, Repr

end Sys2Proof
end

