-- ==== Sys2Proof/WellFormed.lean ====
section
/-! DEFINITION. Which instructions have a frame. An instruction that has none still runs: a Write of
more than 252 bytes raises Oversize (spec R106) and a DEC of a count no frame has raises an error (R122,
R123). -/

namespace Sys2Proof

/-- The payload of a Write leaves room in the length byte: L is at most 252 (R72). -/
def Instr.payloadFits : Instr → Bool
  | .ping _ => true
  | .read _ _ _ => true
  | .write _ _ pay => decide (pay.length ≤ 252)
  | .reply _ => true

/-- The received count of a DEC is at least 6 (R60, R66). -/
def Instr.countMinimal : Instr → Bool
  | .ping _ => true
  | .read _ _ _ => true
  | .write _ _ _ => true
  | .reply n => decide (6 ≤ n)

/-- The received count of a DEC is at most 259, length byte 255 (R60, R73). -/
def Instr.countMaximal : Instr → Bool
  | .ping _ => true
  | .read _ _ _ => true
  | .write _ _ _ => true
  | .reply n => decide (n ≤ 259)

/-- The instruction has a frame of the code map (R75). -/
def Instr.wf (i : Instr) : Bool :=
  i.payloadFits && i.countMinimal && i.countMaximal

end Sys2Proof
end

