-- ==== Sys2Proof/Machine/Operands.lean ====
section
/-! DEFINITION. The operand forms: slices of byte sequences (spec R9), the fields of the two frame
formats and how they are assembled (`30_encoding.md`, R101), and the byte order of payload values (R46). -/

namespace Sys2Proof.Machine

/-! ## Byte sequences -/

/-- The slice `s[a..b)` (R9). -/
def slice (s : List Byte) (a b : Nat) : List Byte := (s.drop a).take (b - a)

/-- `s[i]`; used only at indices inside the sequence (R8). -/
def byteAt (s : List Byte) (i : Nat) : Byte := s.getD i 0

/-- A natural number as a byte, `v[7:0]` (R8). -/
def lowByte (v : Nat) : Byte := BitVec.ofNat 8 v

/-! ## Constants (R6, R62, R65) -/

/-- Both header bytes (R62). -/
abbrev hdrByte : Byte := 0xFF

abbrev codePing : Byte := 0x01
abbrev codeRead : Byte := 0x02
abbrev codeWrite : Byte := 0x03

/-- `MAXPAY`, the largest Write payload (R6, R72). -/
abbrev maxPay : Nat := 252

/-- `MINREPLY`, the smallest reply frame (R6, R66). -/
abbrev minReply : Nat := 6

/-! ## The instruction frame -/

/-- The servo id an ENC instruction carries; DEC has none (R24). -/
def servoId : Instr → Option Byte
  | .ping id => some id
  | .read id _ _ => some id
  | .write id _ _ => some id
  | .reply _ => none

/-- `body` of R101 for a Ping (R68). -/
def pingBody (id : Byte) : List Byte := [id, 0x02, codePing]

/-- `body` of R101 for a Read (R69). -/
def readBody (id addr rlen : Byte) : List Byte := [id, 0x04, codeRead, addr, rlen]

/-- `body` of R101 for a Write; the length byte is `3 + L` (R70, R72). -/
def writeBody (id addr : Byte) (pay : List Byte) : List Byte :=
  [id, lowByte (3 + pay.length), codeWrite, addr] ++ pay

/-- `[0xFF, 0xFF] ++ body ++ [CSUM(body)]` (R101, R66, R67): how every frame of both formats closes. -/
def framed (body : List Byte) : List Byte := [hdrByte, hdrByte] ++ body ++ [csum body]

/-- The bytes a reply's checksum covers (R66). -/
def replyBody (id status : Byte) (data : List Byte) : List Byte :=
  [id, lowByte (data.length + 2), status] ++ data

/-- A well-formed reply frame (R66, R130 (a)). The block never produces one: the servo does. -/
def replyFrame (id status : Byte) (data : List Byte) : List Byte := framed (replyBody id status data)

/-! ## Payload values, little-endian (R46) -/

/-- The two payload bytes of a 16-bit value: `v[7:0]`, then `v[15:8]` (R46). -/
def le16 (v : Half) : List Byte := [v.extractLsb' 0 8, v.extractLsb' 8 8]

/-- The 16-bit value of two payload bytes: `lo + 256 * hi` (R46, R147). -/
def ofLe16 (lo hi : Byte) : Half := BitVec.ofNat 16 (lo.toNat + 256 * hi.toNat)

end Sys2Proof.Machine
end

