-- ==== Sys2Proof/Config.lean ====
section
/-! DEFINITION. What is fixed when the machine is built (spec R6, R29): the open parameters of the
spec, as plain data that `State.cfg` holds, so that a statement about every state holds for every value
of them; and the one open choice that may fall differently each time (U5), as an opaque constant. -/

namespace Sys2Proof

/-- A telemetry register, in the order the refresh reads them (R159). -/
inductive Field where
  | position | speed | temperature | load | voltage | current | moving | error
  deriving DecidableEq, Repr

/-- Per telemetry register, whether it is read with `read_u16` (true) or `read_u8` (false).
The spec states no width (R151, N7): log entry 13. -/
structure ReadWidths where
  position : Bool
  speed : Bool
  temperature : Bool
  load : Bool
  voltage : Bool
  current : Bool
  moving : Bool
  error : Bool
  deriving DecidableEq, Repr

/-- The per-actuator cached snapshot (R153); values are raw, without scaling or sign (R151). -/
structure ServoInfo where
  id : Byte
  position : Half
  goal : Half
  speed : Half
  temperature : Half
  load : Half
  voltage : Half
  current : Half
  moving : Bool
  error : Bool
  deriving DecidableEq, Repr

/-- The parameters of R6 and of `92_eei_decisions.md` D2, D26, and the points the spec leaves to the
host (N7, N11, N12, the goal's update, U5's default). No step changes them. -/
structure Config where
  /-- `CAP`, the capacity of BUF in bytes (R6, R21). -/
  cap : Nat
  /-- `QCAP`, the capacity of the command queue (R155). -/
  qcap : Nat
  /-- The actuator ids chosen at construction; their number is `N` (R155). -/
  ids : List Byte
  addrStatus : Byte
  addrMoving : Byte
  addrCurrent : Byte
  addrTorqueEnable : Byte
  torqueOn : Byte
  torqueOff : Byte
  wide : ReadWidths
  /-- The "default" value of each field (U5), also the snapshot of a session just created. -/
  defaults : ServoInfo
  /-- Whether a register read turns a nonzero status into `StatusError` (N12): log entry 12. -/
  readTestsStatus : Bool
  /-- Whether an accepted move becomes the cached goal (log entry 14; false is R153 to the letter). -/
  goalTracksMoves : Bool
  /-- Whether a write that takes fewer bytes than offered is an error (N11): log entry 10. -/
  shortWriteFails : Bool
  deriving DecidableEq, Repr

/-- The `k`-th telemetry fallback of a run: true takes the default, false the previous value. The spec
admits either each time (U5, R159): a free value, nothing can be proved of it (log entry 16). -/
opaque Config.fallbackToDefault : Nat → Bool

/-- A snapshot with every value zero. -/
def ServoInfo.zero : ServoInfo :=
  { id := 0, position := 0, goal := 0, speed := 0, temperature := 0, load := 0, voltage := 0,
    current := 0, moving := false, error := false }

/-- The configuration the fixed reset state takes. Every value here is the model's (log entries 1, 2,
10, 12, 13, 14, 16): `cap` holds the longest frame, the addresses are those of G4. -/
def Config.standard : Config :=
  { cap := 259, qcap := 8, ids := [1, 2],
    addrStatus := 0x41, addrMoving := 0x42, addrCurrent := 0x45, addrTorqueEnable := 0x28,
    torqueOn := 1, torqueOff := 0,
    wide := { position := true, speed := true, temperature := false, load := true,
              voltage := false, current := true, moving := false, error := false },
    defaults := ServoInfo.zero, readTestsStatus := false, goalTracksMoves := false,
    shortWriteFails := false }

end Sys2Proof
end

