-- ==== Sys2Proof/Machine/State.lean ====
section
/-! DEFINITION. The state of the machine, as plain data: the block's BUF and RES (spec R20), the
parameters it is built with (R6), and the host around it (R12, `45_host_context.md`): its remaining
steps, the channel's answers, its cached telemetry and its queue. Also the names of what a command
reports and of what stops the model. -/

namespace Sys2Proof.Machine

/-! ## What a command reports -/

/-- The block's error kinds, a closed set without arguments or numbers (R180, R187). -/
inductive ErrKind where
  | invalidHeader
  | checksumMismatch
  | bufferTooSmall
  | lengthError
  | oversize
  deriving DecidableEq, Repr

/-- The result record RES and its four shapes (R25). -/
inductive Res where
  | idle
  | encOk (len : Nat)
  | decOk (id status : Byte) (doff dlen : Nat)
  | err (kind : ErrKind)
  deriving DecidableEq, Repr

/-- The fields RES has in one shape or another (R25). -/
inductive ResField where
  | len | id | status | doff | dlen | kind
  deriving DecidableEq, Repr

/-- A parsed reply with its data copied (R121; the host copies before the buffer is reused, R144). -/
structure Reply where
  servoId : Byte
  status : Byte
  data : List Byte
  deriving DecidableEq, Repr

/-! ## The host -/

/-- The host's error kinds (R163, R192); the block's kinds reach the caller unchanged. -/
inductive HostError where
  | transportWrite
  | transportRead
  | codec (kind : ErrKind)
  | statusError (code : Byte)
  | commandOverflow
  deriving DecidableEq, Repr

/-- What the last host operation returned; `kind` and `record` are reads of RES (R29), `snapshot` is the
cached state for rendering (R164). -/
inductive HostResult where
  | none
  | done
  | value (v : Nat)
  | flag (b : Bool)
  | kind (k : ErrKind)
  | record (r : Res)
  | reply (r : Reply)
  | snapshot (infos : List ServoInfo)
  | error (e : HostError)
  deriving DecidableEq, Repr

/-- The channel's answer to one write (R141): a failure after any number of bytes, or the count of
bytes taken, which may be short (U17). -/
inductive WriteAnswer where
  | fails (sent : Nat)
  | accepts (count : Nat)
  deriving DecidableEq, Repr

/-- The channel's answer to one read (R141): a failure that may have deposited bytes, or the bytes it
delivers. Any bytes at all (R12, U17, U18). -/
inductive ReadAnswer where
  | fails (deposited : List Byte)
  | delivers (bytes : List Byte)
  deriving DecidableEq, Repr

/-- The channel's answers to one frame: to its write, and to the read that follows (R142). -/
structure Transfer where
  write : WriteAnswer
  read : ReadAnswer
  deriving DecidableEq, Repr

/-- What follows the position in a position write: exactly three payload shapes exist (R149). -/
inductive MoveTail where
  | none
  | speed (v : Half)
  | speedAccel (v a : Half)
  deriving DecidableEq, Repr

/-- `ServoPositionCommand` (R154). -/
structure MoveCommand where
  id : Byte
  target : Half
  tail : MoveTail
  deriving DecidableEq, Repr

/-- One step of the host (R32, R82, R83, R164). -/
inductive HostStep where
  /-- `ENC <instruction>` or `DEC n` (R82). -/
  | issue (i : Instr)
  /-- `ENC` of the instruction that this sent frame names (log entry 4). -/
  | code (frame : List Byte)
  /-- `TX`: `HOST_LOAD(0, RES.len)`, handed to the channel (R82). -/
  | tx
  /-- `RX b0 ... bk-1`: `HOST_STORE(0, v)` (R82). -/
  | rx (v : List Byte)
  /-- `HOST_LOAD(off, k)` (R32). -/
  | load (off k : Nat)
  /-- `HOST_STORE(off, v)` (R32). -/
  | store (off : Nat) (v : List Byte)
  /-- Read the reply data through the window RES names (R30, R213). -/
  | window
  /-- Read a field of RES (R25, R29). -/
  | readRes (f : ResField)
  /-- Read RES whole, its shape and its fields (R29). -/
  | readRecord
  /-- Reset of the block (R210). -/
  | reset
  /-- `send(instruction)` (R142). -/
  | send (i : Instr)
  /-- `read_u8(id, register)` (R146). -/
  | readU8 (id register : Byte)
  /-- `read_u16(id, register)` (R147). -/
  | readU16 (id register : Byte)
  /-- `write_position(id, position, speed, accel)` (R148). -/
  | writePosition (id : Byte) (position : Half) (tail : MoveTail)
  /-- `enable_torque(id)` (R152). -/
  | enableTorque (id : Byte)
  /-- `disable_torque(id)` (R152). -/
  | disableTorque (id : Byte)
  /-- `is_moving(id)` (R151). -/
  | isMoving (id : Byte)
  /-- `has_error(id)` (R151). -/
  | hasError (id : Byte)
  /-- `read_temperature(id)` and its like: the raw value of a register (R151). -/
  | readValue (id : Byte) (f : Field)
  /-- Read the torque-enable register, a result type of the layer (R151; log entry 30). -/
  | readTorque (id : Byte)
  /-- Enqueue an absolute move (R156). -/
  | moveTo (id : Byte) (target : Half) (tail : MoveTail)
  /-- Enqueue a relative move (R156, R160). -/
  | moveBy (id : Byte) (delta : Int) (tail : MoveTail)
  /-- `process_queued_commands` (R157). -/
  | process
  /-- `update`, the telemetry refresh (R159). -/
  | update
  /-- Read one field of the cached snapshot (R164). -/
  | cached (id : Byte) (f : Field)
  /-- Read the cached state of every actuator, the goals included (R153, R164). -/
  | snapshot
  deriving DecidableEq, Repr

/-! ## What stops the model -/

/-- Faults: uses the spec gives no meaning and tells a model to fault on (R15). -/
inductive Fault where
  /-- Raised by DEC, HOST_LOAD and TX on a range with a byte nothing has written (R22, U10). Safe: the
  hardware returns some byte. -/
  | noValue
  /-- Raised by HOST_LOAD and HOST_STORE on a range not inside BUF (R10, R32). Safe: no such byte
  exists. -/
  | outsideBuf
  /-- Raised by TX and by reading a field of RES that its shape does not have (R25, U11). Safe. -/
  | noSuchField
  /-- Raised by reading the reply window after BUF was written again (R213, U13). Safe: the hardware
  returns the new bytes. -/
  | staleWindow
  /-- Raised by a register read whose reply has too few data bytes (R146, R147, U12; a status test goes
  before it, log entry 31). Safe. -/
  | shortReply
  deriving DecidableEq, Repr

/-- Refusals, by name (R15). -/
inductive Refusal where
  /-- Raised by exec's arms for an instruction that has no meaning yet. Safe. -/
  | notModelled (mnemonic : String)
  /-- Raised by a `code` step whose bytes are no instruction frame, and by `send` of what is no
  instruction: "not an instruction of this block" (R77). Safe. -/
  | notAnInstruction
  /-- Raised by the host's operations for a servo id above 253 (R78, U7). Never by ENC or DEC. Safe. -/
  | outsideExercisedSubset
  /-- Raised by a relative move or a cached read of an id that is not configured: there is no cached
  goal or value (R155, R160; log entry 18). Safe. -/
  | unknownActuator
  deriving DecidableEq, Repr

/-! ## The state -/

/-- The contents of BUF: (offset, byte) pairs in rising order of offset. An unlisted offset holds no
value (R22), so no listed pair says what an unlisted offset says. -/
abbrev Memory := List Host.Cell

/-- The canonical form: offsets strictly rising. -/
def Memory.wf : Memory → Bool
  | [] => true
  | [_] => true
  | c :: d :: m => decide (c.1 < d.1) && Memory.wf (d :: m)

/-- Everything the spec gives the machine, and the model's own fields (INVENTORY.md says which). -/
structure State where
  /-- The parameters (R6); no step changes them. -/
  cfg : Config
  /-- The frame buffer BUF (R21). -/
  buf : Memory
  /-- The result record RES (R25). -/
  res : Res
  /-- The reply window still denotes the reply (R30, R213): model's own, log entry 8. -/
  windowLive : Bool
  /-- The run encoded an id above 253 (R78): model's own, log entry 9. -/
  marked : Bool
  /-- The bytes the host's last load returned (R32): model's own, log entry 21. -/
  loaded : List Byte
  /-- The host steps still to run (R82): model's own, log entry 3. -/
  program : List HostStep
  /-- The bytes handed to the channel, in wire order (R44): model's own, log entry 10. -/
  wireOut : List Byte
  /-- What the channel will answer to the next frames (R12, U17): model's own, log entry 10. -/
  channel : List Transfer
  /-- The cached snapshots, one per configured id (R153, R155). -/
  servos : List ServoInfo
  /-- The queue of pending moves, the most recently queued first (R155, R158). -/
  queue : List MoveCommand
  /-- What the last host operation returned: model's own, log entry 21. -/
  hostRes : HostResult
  /-- How many free choices were drawn (U5): model's own, log entry 16. -/
  freeCount : Nat
  deriving DecidableEq, Repr

/-- The machine right after reset, built with parameters `c`: `RES = Idle`, no byte of BUF has a value
(R31, R210), and a host whose session has just been created (R155). -/
def State.resetWith (c : Config) : State :=
  { cfg := c, buf := [], res := .idle, windowLive := false, marked := false, loaded := [],
    program := [], wireOut := [], channel := [],
    servos := c.ids.map fun id => { c.defaults with id := id },
    queue := [], hostRes := .none, freeCount := 0 }

/-- The machine right after reset, with the parameters of log entries 1 and 2. -/
def State.reset : State := State.resetWith Config.standard

end Sys2Proof.Machine
end

