-- ==== Sys2Proof/Machine/Flags.lean ====
section
/-! DEFINITION. The block has no flags (spec R28). The conditions a command computes are the checks of
the decoder, here over the received bytes `r`, and `Decode(r)`, the pure function they make up (R121). -/

namespace Sys2Proof.Machine

/-- The bytes begin with `FF FF` (R122). -/
def headerOk (r : List Byte) : Bool :=
  decide (2 ≤ r.length) && byteAt r 0 == hdrByte && byteAt r 1 == hdrByte

/-- The received count is a reply's and is what the length byte says: at least 6, and
`r[3] + 4 = n` (R123 (b), (c)). -/
def lengthOk (r : List Byte) : Bool :=
  decide (minReply ≤ r.length) && decide ((byteAt r 3).toNat + 4 = r.length)

/-- `CSUM(r[2 .. n-1)) = r[n-1]` (R125). -/
def checksumOk (r : List Byte) : Bool :=
  csum (slice r 2 (r.length - 1)) == byteAt r (r.length - 1)

/-- `Decode(r)`: the first check that fails, or the reply (R121, R189). -/
def decodeReply (r : List Byte) : Except ErrKind Reply :=
  if !headerOk r then .error .invalidHeader
  else if !lengthOk r then .error .lengthError
  else if !checksumOk r then .error .checksumMismatch
  else .ok { servoId := byteAt r 2, status := byteAt r 4, data := slice r 5 (r.length - 1) }

end Sys2Proof.Machine
end

