-- ==== Sys2Proof/Machine/Ops.lean ====
section
/-! DEFINITION. The named operations on the state: bytes of BUF (spec R10), raising an error (R186), a
frame written by ENC (R100), the host's loads and stores (R32), reset (R210). -/

namespace Sys2Proof.Machine

/-! ## Outcomes -/

/-- A step of the host that also returns a value. -/
abbrev Run (α : Type) := Host.Outcome (State × α) Fault Refusal

/-- Go on after a next state; a fault or a refusal ends the step. -/
def andThen {σ τ : Type} (x : Host.Outcome σ Fault Refusal) (f : σ → Host.Outcome τ Fault Refusal) :
    Host.Outcome τ Fault Refusal :=
  match x with
  | .next s => f s
  | .fault r => .fault r
  | .refused r => .refused r

/-! ## Bytes of BUF -/

/-- `BUF[a]`, or none where the byte holds no value (R10, R22). -/
def readByte : Memory → Nat → Option Byte
  | [], _ => none
  | (k, v) :: m, a => if k = a then some v else readByte m a

/-- `BUF[a] <- b`, every other byte as it was (R10). -/
def writeByte : Memory → Nat → Byte → Memory
  | [], a, b => [(a, b)]
  | (k, v) :: m, a, b =>
    if a < k then (a, b) :: (k, v) :: m
    else if a = k then (a, b) :: m
    else (k, v) :: writeByte m a b

/-- `MemRead(off, n)`, or none where one of the bytes holds no value (R10, R22). -/
def memRead (m : Memory) (off : Nat) : Nat → Option (List Byte)
  | 0 => some []
  | n + 1 =>
    match readByte m off, memRead m (off + 1) n with
    | some b, some bs => some (b :: bs)
    | _, _ => none

/-- `MemWrite(off, |v|, v)` (R10). -/
def memWrite (m : Memory) (off : Nat) : List Byte → Memory
  | [] => m
  | b :: v => memWrite (writeByte m off b) (off + 1) v

/-! ## Ending a command -/

/-- `raise K`, the block's counterpart of taking an exception: RES becomes `Err(K)` and nothing else of
the block changes (R11, R186). No pc or status is saved, no mode changes, no handler is entered. There
is no return operation: the next command simply runs (R190). -/
def raise (k : ErrKind) (s : State) : State := { s with res := .err k, windowLive := false }

/-- The end of a successful ENC: `MemWrite(0, len, F)`, `RES <- EncOk(len)` (R100). An id above 253
marks the run (R78). -/
def writeFrame (id : Byte) (f : List Byte) (s : State) : State :=
  { s with buf := memWrite s.buf 0 f, res := .encOk f.length, windowLive := false,
           marked := s.marked || decide (253 < id.toNat) }

/-- ENC of a frame: BufferTooSmall before the first write, or the frame (R100, R105). -/
def encFrame (id : Byte) (f : List Byte) (s : State) : State :=
  if s.cfg.cap < f.length then raise .bufferTooSmall s else writeFrame id f s

/-! ## The host's access to the block -/

/-- `HOST_LOAD(off, k)`: the bytes; nothing changes (R32). -/
def hostLoad (off k : Nat) (s : State) : Run (List Byte) :=
  if off + k ≤ s.cfg.cap then
    match memRead s.buf off k with
    | some bs => .next (s, bs)
    | none => .fault .noValue
  else .fault .outsideBuf

/-- `HOST_STORE(off, v)`: RES is not changed; the reply window is dead (R32, R213). -/
def hostStore (off : Nat) (v : List Byte) (s : State) : Host.Outcome State Fault Refusal :=
  if off + v.length ≤ s.cfg.cap then
    .next { s with buf := memWrite s.buf off v, windowLive := false }
  else .fault .outsideBuf

/-- A field of RES, none where its shape does not have it (R25, U11). -/
def resField (r : Res) (f : ResField) : Option HostResult :=
  match r, f with
  | .encOk len, .len => some (.value len)
  | .decOk id _ _ _, .id => some (.value id.toNat)
  | .decOk _ status _ _, .status => some (.value status.toNat)
  | .decOk _ _ doff _, .doff => some (.value doff)
  | .decOk _ _ _ dlen, .dlen => some (.value dlen)
  | .err k, .kind => some (.kind k)
  | _, _ => none

/-- `RES.len`, which only a successful ENC leaves (R25). -/
def encodedLength : Res → Option Nat
  | .idle => none
  | .encOk len => some len
  | .decOk _ _ _ _ => none
  | .err _ => none

/-- The reply data through the window `BUF[doff .. doff+dlen)` (R30), while it denotes the reply
(R213, U13). -/
def readWindow (s : State) : Run (List Byte) :=
  match s.res with
  | .decOk _ _ doff dlen => if s.windowLive then hostLoad doff dlen s else .fault .staleWindow
  | _ => .fault .noSuchField

/-- `HOST_LOAD(0, RES.len)` after a successful ENC (R82); the host keeps the bytes it loaded. -/
def loadFrame (s : State) : Run (List Byte) :=
  match encodedLength s.res with
  | some len => andThen (hostLoad 0 len s) fun (s', bs) => .next ({ s' with loaded := bs }, bs)
  | none => .fault .noSuchField

/-- `TX`: the encoded frame handed to the channel, offset 0 first (R44, R82). -/
def transmit (s : State) : Host.Outcome State Fault Refusal :=
  andThen (loadFrame s) fun (s', bs) => .next { s' with wireOut := s'.wireOut ++ bs }

/-- Reset of the block: RES is Idle, no byte of BUF has a value; the host keeps what it has (R210). -/
def resetBlock (s : State) : State := { s with buf := [], res := .idle, windowLive := false }

end Sys2Proof.Machine
end

