-- ==== Sys2Proof/Machine/Dec.lean ====
section
/-! DEFINITION. The decode command DEC (spec `42_decode.md`). It writes RES only (R127). -/

namespace Sys2Proof.Machine

/-- `RES <- DecOk(id, status, 5, n - 6)`; the data stays in BUF and the window is live (R126, R30). -/
def acceptReply (rep : Reply) (n : Nat) (s : State) : State :=
  { s with res := .decOk rep.servoId rep.status 5 (n - minReply), windowLive := true }

/-- `DEC(n)`: a count above CAP is LengthError before anything is read (R123 (a)); a range with a byte
that holds no value has no meaning (R22); otherwise the outcome of `Decode(BUF[0..n))` (R120, R121). -/
def execReply (n : Nat) (s : State) : Host.Outcome State Fault Refusal :=
  if s.cfg.cap < n then .next (raise .lengthError s)
  else
    match memRead s.buf 0 n with
    | none => .fault .noValue
    | some r =>
      match decodeReply r with
      | .error k => .next (raise k s)
      | .ok rep => .next (acceptReply rep n s)

end Sys2Proof.Machine
end

