-- ==== Sys2Proof/Decode.lean ====
section
/-! DEFINITION. From frames to instructions and back. The block itself never parses an instruction frame
(spec R76) and its command interface has no binary form (R24): a frame NAMES an instruction here, by the
code map (R75) and `opcode_table.json` (R84). Log entries 4, 5 and 6. -/

namespace Sys2Proof

open Sys2Proof.Machine

/-- The four rows of the code map (R75). -/
inductive FrameKind where
  | ping | read | write | reply
  deriving DecidableEq, Repr

/-- What ENC wrote is `sent`, what the host stored from the channel is `received`; the bytes do not
tell (R76). -/
inductive Direction where
  | sent | received
  deriving DecidableEq, Repr

/-- Why bytes are no frame of the code map. -/
inductive DecodeError where
  /-- Offsets 0 and 1 are not `FF FF` (R62). -/
  | badHeader
  /-- The code byte is none of 01, 02, 03 (R77). -/
  | unknownCode
  /-- The length byte is not one of the kind's (R71, R72, R66). -/
  | badLength
  /-- Fewer bytes than the length byte says (R73). -/
  | truncated
  deriving DecidableEq, Repr

/-! ## The table -/

/-- A row of `opcode_table.json`: match and mask over offsets 0 to 4, offset 0 first (R84). -/
structure OpcodeRow where
  kind : FrameKind
  pattern : List Byte
  mask : List Byte
  deriving DecidableEq, Repr

/-- `opcode_table.json`, its rows in order. -/
def opcodeTable : List OpcodeRow :=
  [{ kind := .ping, pattern := [0xFF, 0xFF, 0x00, 0x02, 0x01], mask := [0xFF, 0xFF, 0x00, 0xFF, 0xFF] },
   { kind := .read, pattern := [0xFF, 0xFF, 0x00, 0x04, 0x02], mask := [0xFF, 0xFF, 0x00, 0xFF, 0xFF] },
   { kind := .write, pattern := [0xFF, 0xFF, 0x00, 0x00, 0x03], mask := [0xFF, 0xFF, 0x00, 0x00, 0xFF] },
   { kind := .reply, pattern := [0xFF, 0xFF, 0x00, 0x00, 0x00], mask := [0xFF, 0xFF, 0x00, 0x00, 0x00] }]

/-- `(first five bytes AND mask) = match` (R84). -/
def OpcodeRow.fits (row : OpcodeRow) (r : List Byte) : Bool :=
  List.zipWith (fun b m => b &&& m) (r.take 5) row.mask == row.pattern

/-- The first row a frame fits. The instruction rows stand before REPLY, whose mask overlaps them: R84
classifies a frame only once its direction is known, and where it is not, a frame that fits an
instruction row is taken as the sent instruction (DESIGN CHOICE, log entry 28). -/
def classify (r : List Byte) : Option FrameKind :=
  (opcodeTable.find? fun row => row.fits r).map OpcodeRow.kind

/-! ## The decoder -/

/-- The operands of an instruction frame after its code byte; the checksum byte is no operand (R74) and
is passed over, not compared (log entry 4). -/
def decodeOperands (id len code : Byte) (rest : List Byte) : Except DecodeError (Instr × List Byte) :=
  if code = codePing then
    if len = 2 then
      match rest with
      | _ :: tail => .ok (.ping id, tail)
      | [] => .error .truncated
    else .error .badLength
  else if code = codeRead then
    if len = 4 then
      match rest with
      | addr :: rlen :: _ :: tail => .ok (.read id addr rlen, tail)
      | _ => .error .truncated
    else .error .badLength
  else if code = codeWrite then
    if len.toNat < 3 then .error .badLength
    else
      match rest with
      | addr :: more =>
        if more.length < len.toNat - 3 + 1 then .error .truncated
        else .ok (.write id addr (more.take (len.toNat - 3)), more.drop (len.toNat - 3 + 1))
      | [] => .error .truncated
  else .error .unknownCode

/-- An instruction frame at the front of a byte sequence, with the bytes after it (R61, R68 to R70). -/
def decodeSent (r : List Byte) : Except DecodeError (Instr × List Byte) :=
  match r with
  | h0 :: h1 :: id :: len :: code :: rest =>
    if h0 = hdrByte ∧ h1 = hdrByte then decodeOperands id len code rest
    else .error .badHeader
  | _ => .error .truncated

/-- A reply frame at the front of a byte sequence: the DEC that parses it takes its byte count
`length + 4` (R66, R73). Status, data and checksum are DEC's to read, from BUF. -/
def decodeReceived (r : List Byte) : Except DecodeError (Instr × List Byte) :=
  match r with
  | h0 :: h1 :: _ :: len :: rest =>
    if h0 = hdrByte ∧ h1 = hdrByte then
      if len.toNat < 2 then .error .badLength
      else if rest.length < len.toNat then .error .truncated
      else .ok (.reply (len.toNat + 4), rest.drop len.toNat)
    else .error .badHeader
  | _ => .error .truncated

/-- The instruction a frame names, given its direction (R76). -/
def decode : Direction → List Byte → Except DecodeError (Instr × List Byte)
  | .sent, r => decodeSent r
  | .received, r => decodeReceived r

/-! ## The encoder -/

/-- The direction of an instruction's frame (R60). -/
def direction : Instr → Direction
  | .ping _ => .sent
  | .read _ _ _ => .sent
  | .write _ _ _ => .sent
  | .reply _ => .received

/-- `Frame(instr)` (R101). A DEC carries only a count: its frame here is one reply of that many bytes,
from id 0 with status 0 and zero data (log entry 6). -/
def encode : Instr → List Byte
  | .ping id => framed (pingBody id)
  | .read id addr rlen => framed (readBody id addr rlen)
  | .write id addr pay => framed (writeBody id addr pay)
  | .reply n => replyFrame 0 0 (List.replicate (n - minReply) 0)

/-! ## Words of the table -/

/-- The bytes of a word, the least significant first. -/
def wordBytes : Nat → Nat → List Byte
  | 0, _ => []
  | k + 1, w => lowByte w :: wordBytes k (w / 256)

/-- The bytes of a table word in frame order: the first byte is the least significant; a word that has
its header at the other end is one written as R84 writes it, offset 0 first (log entry 5). -/
def tableBytes (nbits w : Nat) : List Byte :=
  let bs := wordBytes (nbits / 8) w
  if bs.take 2 = [hdrByte, hdrByte] then bs else bs.reverse

/-- A table word as the front of a frame, zeros after it up to the frame's end. The masks of WRITE and
REPLY give the length byte no bits: where it is 0 it is not given, and the row's shortest frame is
meant (log entry 5). -/
def tableLayout (nbits w : Nat) : List Byte :=
  let bs := tableBytes nbits w
  let filled :=
    if byteAt bs 3 = 0 then
      match classify bs with
      | some .write => bs.set 3 3
      | some .reply => bs.set 3 2
      | _ => bs
    else bs
  filled ++ List.replicate ((byteAt filled 3).toNat + 4 - filled.length) 0

/-- The instruction a word of the opcode table stands for, by this decoder. A bare word has no direction
(R76): one that fits an instruction row is taken as sent, any other with the header as received
(DESIGN CHOICE, log entry 28). -/
def decodeTableWord (nbits w : Nat) : Option Instr :=
  let r := tableLayout nbits w
  let d := match classify (tableBytes nbits w) with
    | some .reply => Direction.received
    | _ => Direction.sent
  match decode d r with
  | .ok (i, _) => some i
  | .error _ => none

end Sys2Proof
end

