-- ==== Sys2Proof/Machine/Enc.lean ====
section
/-! DEFINITION. The encode command ENC in its three forms (spec `41_encode.md`). It reads neither BUF
nor RES and validates nothing but size (R100, R107). -/

namespace Sys2Proof.Machine

/-- ENC.PING (R102). -/
def execPing (id : Byte) (s : State) : Host.Outcome State Fault Refusal :=
  .next (encFrame id (encode (.ping id)) s)

/-- ENC.READ (R103). -/
def execRead (id addr rlen : Byte) (s : State) : Host.Outcome State Fault Refusal :=
  .next (encFrame id (encode (.read id addr rlen)) s)

/-- ENC.WRITE (R104): Oversize is checked before the frame is evaluated (R106, R188). -/
def execWrite (id addr : Byte) (pay : List Byte) (s : State) : Host.Outcome State Fault Refusal :=
  if maxPay < pay.length then .next (raise .oversize s)
  else .next (encFrame id (encode (.write id addr pay)) s)

end Sys2Proof.Machine
end

