-- ==== Sys2Proof/Machine/Dispatch.lean ====
section
/-! DEFINITION. One arm per instruction, each one direct call of its meaning. -/

namespace Sys2Proof.Machine

def exec (i : Instr) (s : State) : Host.Outcome State Fault Refusal :=
  match i with
  | .ping id => Sys2Proof.Machine.execPing id s
  | .read id addr rlen => Sys2Proof.Machine.execRead id addr rlen s
  | .write id addr pay => Sys2Proof.Machine.execWrite id addr pay s
  | .reply n => Sys2Proof.Machine.execReply n s

end Sys2Proof.Machine
end

