-- ==== Sys2Proof/Machine/Send.lean ====
section
/-! DEFINITION. The Command Dispatcher, the only place I/O occurs (spec R140 to R144): `send` is ENC, TX,
RX, DEC on the one buffer, without anything between them (R162, R215; log entry 11). -/

namespace Sys2Proof.Machine

/-- A channel that takes the whole frame and then times out, which is a failed read (U3). -/
def silentTransfer : Transfer := { write := .accepts 259, read := .fails [] }

/-- The channel's next answers; a channel with none left is silent (log entry 10). -/
def nextTransfer (s : State) : State × Transfer :=
  match s.channel with
  | x :: rest => ({ s with channel := rest }, x)
  | [] => (s, silentTransfer)

/-- `channel.write(bytes)`: what goes out, and whether the write failed (R141, R143, N11). -/
def channelWrite (x : WriteAnswer) (bs : List Byte) (s : State) : State × Option HostError :=
  match x with
  | .fails k => ({ s with wireOut := s.wireOut ++ bs.take k }, some .transportWrite)
  | .accepts k =>
    ({ s with wireOut := s.wireOut ++ bs.take k },
      if s.cfg.shortWriteFails && decide (k < bs.length) then some .transportWrite else none)

/-- RX of the delivered bytes from offset 0, DEC of their count, and the Reply with its data copied
(R142, R144). -/
def receiveReply (v : List Byte) (s : State) : Run (Except HostError Reply) :=
  andThen (hostStore 0 v s) fun s1 =>
  andThen (exec (.reply v.length) s1) fun s2 =>
    match s2.res with
    | .decOk id status _ _ =>
      andThen (readWindow s2) fun (s3, data) =>
        .next (s3, .ok { servoId := id, status := status, data := data })
    | .err k => .next (s2, .error (.codec k))
    | _ => .fault .noSuchField

/-- `channel.read(buffer)`: it deposits at most CAP bytes, from offset 0, and fails or hands on their
count (R141, R142). -/
def channelRead (x : ReadAnswer) (s : State) : Run (Except HostError Reply) :=
  match x with
  | .fails v =>
    andThen (hostStore 0 (v.take s.cfg.cap) s) fun s1 => .next (s1, .error .transportRead)
  | .delivers v => receiveReply (v.take s.cfg.cap) s

/-- The part of `send` after a successful ENC: TX, then the read. A failed write is not followed by a
read, a failed read not by a DEC; nothing is retried (R143). -/
def exchange (s : State) : Run (Except HostError Reply) :=
  andThen (loadFrame s) fun (s1, bs) =>
    match nextTransfer s1 with
    | (s2, x) =>
      match channelWrite x.write bs s2 with
      | (s3, some e) => .next (s3, .error e)
      | (s3, none) => channelRead x.read s3

/-- `send(instruction)` (R142). The status is returned untested (R145). The host's contract is ids 0 to
253 (R78, U7). -/
def send (i : Instr) (s : State) : Run (Except HostError Reply) :=
  match servoId i with
  | none => .refused .notAnInstruction
  | some id =>
    if 253 < id.toNat then .refused .outsideExercisedSubset
    else
      andThen (exec i s) fun s1 =>
        match s1.res with
        | .err k => .next (s1, .error (.codec k))
        | _ => exchange s1

end Sys2Proof.Machine
end

