-- ==== Sys2Proof/Machine/Registers.lean ====
section
/-! DEFINITION. The Register Access Layer (spec R146 to R152): typed reads and writes, each one Read or
Write instruction sent once. -/

namespace Sys2Proof.Machine

/-! ## The register map (R150) -/

/-- `ADDR_GOAL_POSITION` (R148, R150). -/
def addrGoalPosition : Byte := 0x2A

/-- The address of a telemetry register: six are the source's, the others open parameters (R150). -/
def fieldAddr (c : Config) : Field → Byte
  | .position => 0x38
  | .speed => 0x3A
  | .temperature => 0x3F
  | .load => 0x3C
  | .voltage => 0x3E
  | .current => c.addrCurrent
  | .moving => c.addrMoving
  | .error => c.addrStatus

/-- Whether the register is read with `read_u16` (N7; log entry 13). -/
def fieldWide (c : Config) : Field → Bool
  | .position => c.wide.position
  | .speed => c.wide.speed
  | .temperature => c.wide.temperature
  | .load => c.wide.load
  | .voltage => c.wide.voltage
  | .current => c.wide.current
  | .moving => c.wide.moving
  | .error => c.wide.error

/-! ## Sequencing host operations -/

/-- Go on with the value of an operation; an error is returned to the caller at once (R163). -/
def thenOk {α β : Type} (x : Run (Except HostError α)) (f : α → State → Run (Except HostError β)) :
    Run (Except HostError β) :=
  andThen x fun (s, r) =>
    match r with
    | .ok a => f a s
    | .error e => .next (s, .error e)

/-- The end of a host step: what the operation returned. -/
def conclude {α : Type} (x : Run (Except HostError α)) (f : α → HostResult) :
    Host.Outcome State Fault Refusal :=
  andThen x fun (s, r) =>
    match r with
    | .ok a => .next { s with hostRes := f a }
    | .error e => .next { s with hostRes := .error e }

/-! ## Reads -/

/-- A Read that was answered: its data, or `StatusError` where the host tests the status of reads
(R145, N12; log entry 12). The status is tested before the data is counted, so a nonzero status with too
few data bytes is then `StatusError` and no fault: the spec gives no order (DESIGN CHOICE, log entry 31). -/
def readData (id register count : Byte) (s : State) : Run (Except HostError (List Byte)) :=
  thenOk (send (.read id register count) s) fun rep s' =>
    if s'.cfg.readTestsStatus && rep.status != 0 then .next (s', .error (.statusError rep.status))
    else .next (s', .ok rep.data)

/-- `read_u8(id, register)`: the first data byte (R146). -/
def readU8 (id register : Byte) (s : State) : Run (Except HostError Byte) :=
  thenOk (readData id register 1 s) fun data s' =>
    match data with
    | b :: _ => .next (s', .ok b)
    | [] => .fault .shortReply

/-- `read_u16(id, register)`: the first two data bytes, little-endian (R147). -/
def readU16 (id register : Byte) (s : State) : Run (Except HostError Half) :=
  thenOk (readData id register 2 s) fun data s' =>
    match data with
    | lo :: hi :: _ => .next (s', .ok (ofLe16 lo hi))
    | _ => .fault .shortReply

/-- The raw value of a telemetry register (R151). -/
def readField (id : Byte) (f : Field) (s : State) : Run (Except HostError Half) :=
  if fieldWide s.cfg f then readU16 id (fieldAddr s.cfg f) s
  else thenOk (readU8 id (fieldAddr s.cfg f) s) fun b s' => .next (s', .ok (b.setWidth 16))

/-- The raw value of the torque-enable register, one byte wide (R150, R151; log entry 30). -/
def readTorque (id : Byte) (s : State) : Run (Except HostError Byte) :=
  readU8 id s.cfg.addrTorqueEnable s

/-! ## Writes -/

/-- The payload bytes after the position, one shape each (R148, R149). -/
def tailBytes : MoveTail → List Byte
  | .none => []
  | .speed v => le16 v
  | .speedAccel v a => le16 v ++ le16 a

/-- The payload of a position write: 2, 4 or 6 bytes (R148). -/
def positionPayload (position : Half) (tail : MoveTail) : List Byte := le16 position ++ tailBytes tail

/-- `write_position` (R148). -/
def writePosition (id : Byte) (position : Half) (tail : MoveTail) (s : State) :
    Run (Except HostError Reply) :=
  send (.write id addrGoalPosition (positionPayload position tail)) s

/-- A single-byte write to the torque-enable address (R152). -/
def writeTorque (id v : Byte) (s : State) : Run (Except HostError Reply) :=
  send (.write id s.cfg.addrTorqueEnable [v]) s

end Sys2Proof.Machine
end

