-- ==== Sys2Proof/Machine/Servo.lean ====
section
/-! DEFINITION. Servo state and command queue (spec R153 to R161). -/

namespace Sys2Proof.Machine

/-! ## Cached values -/

/-- A flag as the raw value of its register: 0 or not (R151). -/
def flagValue (b : Bool) : Half := if b then 1 else 0

/-- One cached telemetry value (R153). -/
def getField (info : ServoInfo) : Field → Half
  | .position => info.position
  | .speed => info.speed
  | .temperature => info.temperature
  | .load => info.load
  | .voltage => info.voltage
  | .current => info.current
  | .moving => flagValue info.moving
  | .error => flagValue info.error

/-- Overwrite one cached telemetry value; the flags are `!= 0` (R151, R159). -/
def setField (info : ServoInfo) (f : Field) (v : Half) : ServoInfo :=
  match f with
  | .position => { info with position := v }
  | .speed => { info with speed := v }
  | .temperature => { info with temperature := v }
  | .load => { info with load := v }
  | .voltage => { info with voltage := v }
  | .current => { info with current := v }
  | .moving => { info with moving := v != 0 }
  | .error => { info with error := v != 0 }

/-- The cached snapshot of an actuator (R164). -/
def findServo (id : Byte) (s : State) : Option ServoInfo := s.servos.find? fun info => info.id == id

/-! ## Moves -/

/-- `(current_goal + delta) mod 4096`, the Euclidean remainder (R160). -/
def newGoal (goal : Half) (delta : Int) : Half :=
  BitVec.ofNat 16 (((goal.toNat : Int) + delta) % 4096).toNat

/-- The cached goals after an accepted move (log entry 14). -/
def trackGoal (c : MoveCommand) (s : State) : List ServoInfo :=
  if s.cfg.goalTracksMoves then
    s.servos.map fun info => if info.id = c.id then { info with goal := c.target } else info
  else s.servos

/-- Push exactly one command; at capacity, CommandOverflow and the queue as it was (R155, R156). -/
def enqueue (c : MoveCommand) (s : State) : Host.Outcome State Fault Refusal :=
  if 253 < c.id.toNat then .refused .outsideExercisedSubset
  else if s.queue.length < s.cfg.qcap then
    .next { s with queue := c :: s.queue, servos := trackGoal c s, hostRes := .done }
  else .next { s with hostRes := .error .commandOverflow }

/-- A relative move, from the cached goal and not the measured position (R153, R160). -/
def enqueueRelative (id : Byte) (delta : Int) (tail : MoveTail) (s : State) :
    Host.Outcome State Fault Refusal :=
  match findServo id s with
  | some info => enqueue { id := id, target := newGoal info.goal delta, tail := tail } s
  | none => .refused .unknownActuator

/-- What a tick returns for a flushed command's reply: a nonzero status is `StatusError` (R157). -/
def flushResult (rep : Reply) : HostResult :=
  if rep.status = 0 then .done else .error (.statusError rep.status)

/-- `process_queued_commands`: the most recently queued command leaves the queue and is sent, whatever
comes of it; an empty queue is a success (R157, R158). -/
def processQueue (s : State) : Host.Outcome State Fault Refusal :=
  match s.queue with
  | [] => .next { s with hostRes := .done }
  | c :: rest =>
    conclude (writePosition c.id c.target c.tail { s with queue := rest }) flushResult

/-! ## Telemetry refresh (R159) -/

/-- The registers after the first, in the order they are read. -/
def laterFields : List Field := [.speed, .temperature, .load, .voltage, .current, .moving, .error]

/-- The default or the previous value, a free choice (U5; log entry 16). -/
def fallbackValue (f : Field) (prev : ServoInfo) (s : State) : State × Half :=
  ({ s with freeCount := s.freeCount + 1 },
    if Config.fallbackToDefault s.freeCount then getField s.cfg.defaults f else getField prev f)

/-- The outcome of one register read in the snapshot: the value read, or the fallback. -/
def fillField (f : Field) (prev info : ServoInfo) (r : Except HostError Half) (s : State) :
    State × ServoInfo :=
  match r with
  | .ok v => (s, setField info f v)
  | .error _ =>
    match fallbackValue f prev s with
    | (s', v) => (s', setField info f v)

/-- The reads of these registers, one failed read not stopping the others. -/
def refreshFields : List Field → ServoInfo → ServoInfo → State → Run ServoInfo
  | [], _, info, s => .next (s, info)
  | f :: fs, prev, info, s =>
    andThen (readField prev.id f s) fun (s1, r) =>
      match fillField f prev info r s1 with
      | (s2, info') => refreshFields fs prev info' s2

/-- A failure of the channel, not of the codec or the servo (R143). -/
def isTransport : HostError → Bool
  | .transportWrite => true
  | .transportRead => true
  | .codec _ => false
  | .statusError _ => false
  | .commandOverflow => false

/-- The refresh of one actuator; a transport failure on its first read leaves its values stale. -/
def refreshServo (prev : ServoInfo) (s : State) : Run ServoInfo :=
  andThen (readField prev.id .position s) fun (s1, r) =>
    match r with
    | .error e =>
      if isTransport e then .next (s1, prev)
      else
        match fillField .position prev prev (.error e) s1 with
        | (s2, info) => refreshFields laterFields prev info s2
    | .ok v => refreshFields laterFields prev (setField prev .position v) s1

/-- The refresh of every actuator, one after the other. -/
def refreshAll : List ServoInfo → State → Run (List ServoInfo)
  | [], s => .next (s, [])
  | prev :: rest, s =>
    andThen (refreshServo prev s) fun (s1, info) =>
    andThen (refreshAll rest s1) fun (s2, infos) =>
      .next (s2, info :: infos)

/-- `update`: the snapshots are overwritten in place (R155, R159). What it returns to its caller where
reads failed or an actuator was aborted the spec does not say: it returns done, and the errors are dropped
(DESIGN CHOICE, log entry 29). -/
def updateTelemetry (s : State) : Host.Outcome State Fault Refusal :=
  andThen (refreshAll s.servos s) fun (s', infos) =>
    .next { s' with servos := infos, hostRes := .done }

/-- A tick as a program: at most one write command, then at most one refresh, in that order (R161). -/
def tickProgram (refresh : Bool) : List HostStep := if refresh then [.process, .update] else [.process]

end Sys2Proof.Machine
end

