-- ==== Sys2Proof/Machine/HostSteps.lean ====
section
/-! DEFINITION. The host's steps, one meaning each (spec R32, R82, R83, R164). -/

namespace Sys2Proof.Machine

/-- ENC of the instruction that a sent frame names; anything else is not an instruction of this block
(R77; log entry 4). -/
def runCode (frame : List Byte) (s : State) : Host.Outcome State Fault Refusal :=
  match decode .sent frame with
  | .ok (i, []) => exec i s
  | .ok (_, _ :: _) => .refused .notAnInstruction
  | .error _ => .refused .notAnInstruction

/-- The bytes of a load, kept by the host. -/
def keepLoaded (x : Run (List Byte)) : Host.Outcome State Fault Refusal :=
  andThen x fun (s, bs) => .next { s with loaded := bs }

/-- Reading a field of RES; a field its shape does not have is a fault (R25, U11). -/
def readResult (f : ResField) (s : State) : Host.Outcome State Fault Refusal :=
  match resField s.res f with
  | some v => .next { s with hostRes := v }
  | none => .fault .noSuchField

/-- Reading a field of the cached snapshot (R164). -/
def readCached (id : Byte) (f : Field) (s : State) : Host.Outcome State Fault Refusal :=
  match findServo id s with
  | some info => .next { s with hostRes := .value (getField info f).toNat }
  | none => .refused .unknownActuator

/-- One step of the host. -/
def runHostStep (h : HostStep) (s : State) : Host.Outcome State Fault Refusal :=
  match h with
  | .issue i => exec i s
  | .code frame => runCode frame s
  | .tx => transmit s
  | .rx v => hostStore 0 v s
  | .load off k => keepLoaded (hostLoad off k s)
  | .store off v => hostStore off v s
  | .window => keepLoaded (readWindow s)
  | .readRes f => readResult f s
  | .readRecord => .next { s with hostRes := .record s.res }
  | .reset => .next (resetBlock s)
  | .send i => conclude (send i s) HostResult.reply
  | .readU8 id register => conclude (readU8 id register s) fun b => .value b.toNat
  | .readU16 id register => conclude (readU16 id register s) fun v => .value v.toNat
  | .writePosition id position tail => conclude (writePosition id position tail s) HostResult.reply
  | .enableTorque id => conclude (writeTorque id s.cfg.torqueOn s) HostResult.reply
  | .disableTorque id => conclude (writeTorque id s.cfg.torqueOff s) HostResult.reply
  | .isMoving id => conclude (readField id .moving s) fun v => .flag (v != 0)
  | .hasError id => conclude (readField id .error s) fun v => .flag (v != 0)
  | .readValue id f => conclude (readField id f s) fun v => .value v.toNat
  | .readTorque id => conclude (readTorque id s) fun b => .value b.toNat
  | .moveTo id target tail => enqueue { id := id, target := target, tail := tail } s
  | .moveBy id delta tail => enqueueRelative id delta tail s
  | .process => processQueue s
  | .update => updateTelemetry s
  | .cached id f => readCached id f s
  | .snapshot => .next { s with hostRes := .snapshot s.servos }

end Sys2Proof.Machine
end

