-- ==== Sys2Proof/Machine/Step.lean ====
section
/-! DEFINITION. The step: the block sequences nothing itself, the host issues one step after the other
(spec R27, R52, R82). How an instruction comes to stand where the step takes it: log entry 3. -/

namespace Sys2Proof.Machine

/-- The next host step runs; when none is left the run has ended and the block waits (R14, R210). -/
def step (s : State) : Host.Outcome State Fault Refusal :=
  match s.program with
  | [] => .next s
  | h :: rest => runHostStep h { s with program := rest }

/-- `s` with the instruction of a table word as the host's next step. A sent frame is put there as a
frame; for a received one its bytes are deposited in BUF where they fit, as RX does, and the DEC of
their count is issued. -/
def State.withFetchWord (s : State) (nbits w : Nat) : State :=
  let r := tableLayout nbits w
  match decodeTableWord nbits w with
  | some (.reply n) =>
    { s with buf := if n ≤ s.cfg.cap then memWrite s.buf 0 (r.take n) else s.buf,
             windowLive := false,
             program := .issue (.reply n) :: s.program }
  | some i => { s with program := .code (r.take (encode i).length) :: s.program }
  | none => { s with program := .code r :: s.program }

end Sys2Proof.Machine
end

