-- ==== Sys2Proof/Safety.lean ====
section
/-! DEFINITION. The terms claims are stated in: what holds of the machine between any two steps. -/

namespace Sys2Proof.Machine

/-- Every byte that holds a value lies inside BUF (spec R21, R41). -/
def State.BufInside (s : State) : Prop := ∀ c ∈ s.buf, c.1 < s.cfg.cap

/-- The ranges of RES's fields (R25), and that the bytes it speaks of have been written: the encoded
frame, or the reply that was parsed. -/
def State.ResInRange (s : State) : Prop :=
  match s.res with
  | .idle => True
  | .encOk len => 6 ≤ len ∧ len ≤ 259 ∧ len ≤ s.cfg.cap ∧ (memRead s.buf 0 len).isSome
  | .decOk _ _ doff dlen =>
    doff = 5 ∧ dlen ≤ 253 ∧ dlen + 6 ≤ s.cfg.cap ∧ (memRead s.buf 0 (dlen + 6)).isSome
  | .err _ => True

/-- While the reply window is live, BUF still holds the reply RES reports (R30, R213). -/
def State.WindowHoldsReply (s : State) : Prop :=
  s.windowLive = true →
    ∃ id status dlen r data,
      s.res = .decOk id status 5 dlen ∧ memRead s.buf 0 (dlen + 6) = some r ∧
      decodeReply r = .ok { servoId := id, status := status, data := data }

/-- The queue is within its capacity and holds moves of single actuators only (R155, R78). -/
def State.QueueBounded (s : State) : Prop :=
  s.queue.length ≤ s.cfg.qcap ∧ ∀ c ∈ s.queue, c.id.toNat ≤ 253

/-- One cached snapshot per configured actuator, in order (R155). -/
def State.ServosConfigured (s : State) : Prop := s.servos.map ServoInfo.id = s.cfg.ids

/-- The invariant of the machine. -/
structure State.Inv (s : State) : Prop where
  bufCanonical : s.buf.wf = true
  bufInside : s.BufInside
  resInRange : s.ResInRange
  windowHoldsReply : s.WindowHoldsReply
  queueBounded : s.QueueBounded
  servosConfigured : s.ServosConfigured

/-- The same host around two states: everything but BUF, RES and the two marks that a command of the
block sets. -/
def SameHost (s t : State) : Prop :=
  t.cfg = s.cfg ∧ t.loaded = s.loaded ∧ t.program = s.program ∧ t.wireOut = s.wireOut ∧
  t.channel = s.channel ∧ t.servos = s.servos ∧ t.queue = s.queue ∧ t.hostRes = s.hostRes ∧
  t.freeCount = s.freeCount

end Sys2Proof.Machine
end

