-- ==== Sys2Proof/Certificates/Slice0/Obligations.lean ====
section
/-! DEFINITION. The statements for the provers. Each docstring names the rule it states, or, where it
rests on a decision of the spec's own or on the model's choice, that decision or log entry. -/

open Sys2Proof Sys2Proof.Machine

/-! ## The checksum generator -/

/-- R90: the complement of the mod-256 sum, and the worked example. -/
def Obligations.ChecksumIsComplementOfByteSum : Prop :=
  (∀ s : List Byte, (csum s).toNat = 255 - (s.map BitVec.toNat).sum % 256) ∧
  csum [0x01, 0x09, 0x03, 0x2A, 0x00, 0x08, 0x00, 0x00, 0xE8, 0x03] = 0xD5

/-- `40_checksum.md` section 1, byte-serial form (derived in the spec): the accumulator loop computes
CSUM. -/
def Obligations.ByteSerialFormComputesChecksum : Prop :=
  ∀ s : List Byte, csumSerial s = csum s

/-- `40_checksum.md` section 2, verification identity (derived in the spec). -/
def Obligations.ChecksumVerificationIdentity : Prop :=
  ∀ (s : List Byte) (c : Byte),
    c = csum s ↔ ((s.map BitVec.toNat).sum + c.toNat) % 256 = 255

/-- `40_checksum.md` section 2, laws (b) to (f) (derived in the spec): the empty operand, when the
result is 0x00 or 0xFF, every byte is a checksum, permutations, concatenation, zero bytes. -/
def Obligations.ChecksumArithmeticLaws : Prop :=
  csum [] = 0xFF ∧
  (∀ s : List Byte, csum s = 0x00 ↔ (s.map BitVec.toNat).sum % 256 = 255) ∧
  (∀ s : List Byte, csum s = 0xFF ↔ (s.map BitVec.toNat).sum % 256 = 0) ∧
  (∀ b : Byte, ∃ s, csum s = b) ∧
  (∀ s t : List Byte, s.Perm t → csum s = csum t) ∧
  (∀ a b : List Byte, csum (a ++ b) = ~~~(~~~(csum a) + ~~~(csum b))) ∧
  (∀ a b : List Byte, csum (a ++ 0 :: b) = csum (a ++ b))

/-- `40_checksum.md` section 2, single-byte sensitivity (derived in the spec). -/
def Obligations.ChecksumSeesOneChangedByte : Prop :=
  ∀ (a c : List Byte) (b b' : Byte), b ≠ b' → csum (a ++ b :: c) ≠ csum (a ++ b' :: c)

/-! ## Frames -/

/-- Words written out from R68 to R70 and R66 decode to what they stand for (a sanity statement; that a
frame names an instruction is log entry 4). -/
def Obligations.WordsOfTheSpecDecode : Prop :=
  decode .sent [0xFF, 0xFF, 0x01, 0x02, 0x01, 0xFB] = .ok (.ping 1, []) ∧
  decode .sent [0xFF, 0xFF, 0x01, 0x04, 0x02, 0x38, 0x02, 0xBE] = .ok (.read 1 0x38 2, []) ∧
  decode .sent [0xFF, 0xFF, 0x01, 0x05, 0x03, 0x2A, 0x00, 0x08, 0xC4] =
    .ok (.write 1 0x2A [0x00, 0x08], []) ∧
  decode .received [0xFF, 0xFF, 0x01, 0x04, 0x00, 0x00, 0x08, 0xF2] = .ok (.reply 8, []) ∧
  decode .sent [0xFF, 0xFF, 0x01, 0x02, 0x04, 0xF8] = .error .unknownCode

/-- `30_encoding.md` sections 2 to 5 (the Ping and the reply layout are decisions D7 and D8 of the
spec's own; decoding a sent frame is log entry 4): every frame decodes to its instruction, with every
operand at every value its encoding admits, and with whatever follows the frame left over. -/
def Obligations.DecodeOfEncodeIsIdentity : Prop :=
  ∀ (i : Instr) (tail : List Byte), i.wf = true →
    decode (direction i) (encode i ++ tail) = .ok (i, tail)

/-- The other direction (log entry 4): bytes that decode to an instruction are that instruction's frame
in every byte but the checksum, which is no operand. -/
def Obligations.DecodedBytesAreTheFrame : Prop :=
  ∀ (r : List Byte) (i : Instr) (tail : List Byte), decode .sent r = .ok (i, tail) →
    direction i = .sent ∧ i.wf = true ∧ ∃ c, r = (encode i).dropLast ++ c :: tail

/-- `41_encode.md` section 4, property (d) (derived in the spec): `Frame` is injective. -/
def Obligations.DifferentInstructionsDifferentFrames : Prop :=
  ∀ i j : Instr, direction i = .sent → direction j = .sent → i.wf = true → j.wf = true →
    encode i = encode j → i = j

/-- `30_encoding.md` sections 6 and 9 (the table's conventions are decision D30 of the spec's own, that
an instruction row goes before REPLY is log entry 28):
every instruction frame is of its own row's kind, and no frame is of two instruction rows' kind. -/
def Obligations.InstructionRowsDoNotOverlap : Prop :=
  (∀ id, classify (encode (.ping id)) = some .ping) ∧
  (∀ id addr rlen, classify (encode (.read id addr rlen)) = some .read) ∧
  (∀ id addr pay, pay.length ≤ 252 → classify (encode (.write id addr pay)) = some .write) ∧
  (∀ row row' r, row ∈ opcodeTable.take 3 → row' ∈ opcodeTable.take 3 →
    row.fits r = true → row'.fits r = true → row = row')

/-- `41_encode.md` section 4, properties (a) and (b) (derived in the spec): what an encoded frame holds
at its fixed offsets, and that the 8-bit sum from the id through the checksum is 0xFF. -/
def Obligations.EncodedFrameIsConsistent : Prop :=
  ∀ i : Instr, direction i = .sent → i.wf = true →
    byteAt (encode i) 0 = 0xFF ∧ byteAt (encode i) 1 = 0xFF ∧
    servoId i = some (byteAt (encode i) 2) ∧
    (byteAt (encode i) 3).toNat + 4 = (encode i).length ∧
    byteAt (encode i) ((encode i).length - 1) =
      csum (slice (encode i) 2 ((encode i).length - 1)) ∧
    ((slice (encode i) 2 (encode i).length).map BitVec.toNat).sum % 256 = 255 ∧
    6 ≤ (encode i).length ∧ (encode i).length ≤ 259

/-! ## ENC: what each form does -/

/-- `41_encode.md` section 2, ENC.PING (the frame is decision D7 of the spec's own): where the frame
fits, these six bytes are written and RES is EncOk(6). -/
def Obligations.PingEncodesSixBytes : Prop :=
  ∀ (id : Byte) (s : State), 6 ≤ s.cfg.cap →
    ∃ t, exec (.ping id) s = .next t ∧ t.res = .encOk 6 ∧
      memRead t.buf 0 6 = some [0xFF, 0xFF, id, 0x02, 0x01, ~~~(id + 3)] ∧
      csum [id, 0x02, 0x01] = ~~~(id + 3)

/-- R69: where the frame fits, these eight bytes are written and RES is EncOk(8); the checksum is that
of the five bytes, `~((id + 6 + addr + rlen) mod 256)`. -/
def Obligations.ReadEncodesEightBytes : Prop :=
  ∀ (id addr rlen : Byte) (s : State), 8 ≤ s.cfg.cap →
    ∃ t, exec (.read id addr rlen) s = .next t ∧ t.res = .encOk 8 ∧
      memRead t.buf 0 8 =
        some [0xFF, 0xFF, id, 0x04, 0x02, addr, rlen, csum [id, 0x04, 0x02, addr, rlen]] ∧
      csum [id, 0x04, 0x02, addr, rlen] = ~~~(id + 6 + addr + rlen)

/-- R70: where the payload is at most 252 bytes and the frame fits, these `7 + L` bytes are written and
RES is EncOk(7 + L). -/
def Obligations.WriteEncodesPayloadVerbatim : Prop :=
  ∀ (id addr : Byte) (pay : List Byte) (s : State),
    pay.length ≤ 252 → 7 + pay.length ≤ s.cfg.cap →
    ∃ t, ∃ len : Byte, exec (.write id addr pay) s = .next t ∧ t.res = .encOk (7 + pay.length) ∧
      len.toNat = 3 + pay.length ∧
      memRead t.buf 0 (7 + pay.length) =
        some ([0xFF, 0xFF, id, len, 0x03, addr] ++ pay ++ [csum ([id, len, 0x03, addr] ++ pay)])

/-- `41_encode.md` section 3, BufferTooSmall (decision D5 of the spec's own): each form, where its frame
does not fit, changes RES alone (and the window's mark, log entry 8). -/
def Obligations.EncWithoutRoomIsBufferTooSmall : Prop :=
  (∀ id s, s.cfg.cap < 6 →
    exec (.ping id) s = .next { s with res := .err .bufferTooSmall, windowLive := false }) ∧
  (∀ id addr rlen s, s.cfg.cap < 8 →
    exec (.read id addr rlen) s = .next { s with res := .err .bufferTooSmall, windowLive := false }) ∧
  (∀ id addr pay s, pay.length ≤ 252 → s.cfg.cap < 7 + pay.length →
    exec (.write id addr pay) s = .next { s with res := .err .bufferTooSmall, windowLive := false })

/-- `41_encode.md` section 3, Oversize (decision D6 of the spec's own): whatever CAP is. -/
def Obligations.LongWriteIsOversize : Prop :=
  ∀ (id addr : Byte) (pay : List Byte) (s : State), 252 < pay.length →
    exec (.write id addr pay) s = .next { s with res := .err .oversize, windowLive := false }

/-- `41_encode.md` sections 1 and 4 (the kept tail is decision D21 of the spec's own): the frame of
PING, READ and WRITE. ENC stores at offset 0 the bytes of its frame; every byte beyond them reads as
before, after an error every byte does, and nothing of the host changes. The mark of a run that
encoded an id above 253 is log entry 9. -/
def Obligations.EncLeavesTheRestAlone : Prop :=
  ∀ (i : Instr) (s t : State), direction i = .sent → exec i s = .next t →
    SameHost s t ∧
    (∀ a, (encode i).length ≤ a → readByte t.buf a = readByte s.buf a) ∧
    (∀ k, t.res = .err k → t.marked = s.marked ∧ ∀ a, readByte t.buf a = readByte s.buf a) ∧
    (∀ len id, t.res = .encOk len → servoId i = some id →
      t.marked = (s.marked || decide (253 < id.toNat)))

/-- `41_encode.md` section 4 with `20_memory.md` section 5: after a successful ENC, HOST_LOAD of the
reported length returns exactly the encoded frame. -/
def Obligations.EncodedFrameLoadsBack : Prop :=
  ∀ (i : Instr) (s t : State) (len : Nat), direction i = .sent → exec i s = .next t →
    t.res = .encOk len → len = (encode i).length ∧ hostLoad 0 len t = .next (t, encode i)

/-- `41_encode.md` section 1 and `20_memory.md` section 3: ENC reads its operands only. Two states with
the same CAP, whatever else they hold, give the same RES and, on success, the same stored bytes. -/
def Obligations.EncReadsOperandsOnly : Prop :=
  ∀ (i : Instr) (s s' t t' : State), direction i = .sent → s.cfg.cap = s'.cfg.cap →
    exec i s = .next t → exec i s' = .next t' →
    t.res = t'.res ∧
    ∀ len, t.res = .encOk len → ∀ a < len, readByte t.buf a = readByte t'.buf a

/-! ## DEC: what it does -/

/-- `42_decode.md` section 2, success (the reply layout is decision D8 of the spec's own, the count and
length condition D9, the untouched BUF D16): when every check passes RES is DecOk with the bytes at
offsets 2 and 4, and the window
`BUF[5 .. n-1)`, of length `n - 6`, the length byte less 2, holds the bytes between the status and the
checksum; the data is not copied, BUF stays as it is. -/
def Obligations.GoodReplyDecodes : Prop :=
  ∀ (n : Nat) (s : State) (r : List Byte),
    n ≤ s.cfg.cap → memRead s.buf 0 n = some r →
    byteAt r 0 = 0xFF → byteAt r 1 = 0xFF → 6 ≤ n → (byteAt r 3).toNat + 4 = n →
    csum (slice r 2 (n - 1)) = byteAt r (n - 1) →
    ∃ t, exec (.reply n) s = .next t ∧ t.res = .decOk (byteAt r 2) (byteAt r 4) 5 (n - 6) ∧
      t.buf = s.buf ∧ memRead t.buf 5 (n - 6) = some (slice r 5 (n - 1)) ∧
      n - 6 = (byteAt r 3).toNat - 2

/-- `60_exceptions.md` section 1 (decisions D10, D11 and D22 of the spec's own: fewer than two bytes, a
count above CAP first, bytes with no value): InvalidHeader is raised by DEC, and only by DEC, exactly
when the bytes it was given do not begin with `FF FF`. -/
def Obligations.InvalidHeaderExactlyWhen : Prop :=
  ∀ (i : Instr) (s : State),
    (∃ t, exec i s = .next t ∧ t.res = .err .invalidHeader) ↔
    ∃ n r, i = .reply n ∧ n ≤ s.cfg.cap ∧ memRead s.buf 0 n = some r ∧
      (n < 2 ∨ byteAt r 0 ≠ 0xFF ∨ byteAt r 1 ≠ 0xFF)

/-- `42_decode.md` section 2, length checks (decisions D9, D11 and D22 of the spec's own): LengthError,
exactly when the count is above CAP, or the header is right and the count is below 6 or not what the
length byte says. -/
def Obligations.LengthErrorExactlyWhen : Prop :=
  ∀ (i : Instr) (s : State),
    (∃ t, exec i s = .next t ∧ t.res = .err .lengthError) ↔
    ∃ n, i = .reply n ∧ (s.cfg.cap < n ∨
      ∃ r, n ≤ s.cfg.cap ∧ memRead s.buf 0 n = some r ∧
        2 ≤ n ∧ byteAt r 0 = 0xFF ∧ byteAt r 1 = 0xFF ∧
        (n < 6 ∨ (byteAt r 3).toNat + 4 ≠ n))

/-- `60_exceptions.md` section 1 (decisions of the spec's own: the length check is D9, its place before the
checksum D11, bytes with no value D22, log entry 7): ChecksumMismatch is raised by DEC, and only by DEC,
exactly when the header and length checks pass and the computed and received checksums differ. -/
def Obligations.ChecksumMismatchExactlyWhen : Prop :=
  ∀ (i : Instr) (s : State),
    (∃ t, exec i s = .next t ∧ t.res = .err .checksumMismatch) ↔
    ∃ n r, i = .reply n ∧ n ≤ s.cfg.cap ∧ memRead s.buf 0 n = some r ∧
      6 ≤ n ∧ byteAt r 0 = 0xFF ∧ byteAt r 1 = 0xFF ∧ (byteAt r 3).toNat + 4 = n ∧
      csum (slice r 2 (n - 1)) ≠ byteAt r (n - 1)

/-- `60_exceptions.md` sections 1 and 3 (decisions D5 and D6 of the spec's own): BufferTooSmall and
Oversize are raised by ENC only, Oversize by a Write of more than 252 bytes and by it alone. -/
def Obligations.EncErrorsExactlyWhen : Prop :=
  ∀ (i : Instr) (s : State),
    ((∃ t, exec i s = .next t ∧ t.res = .err .oversize) ↔
      ∃ id addr pay, i = .write id addr pay ∧ 252 < pay.length) ∧
    ((∃ t, exec i s = .next t ∧ t.res = .err .bufferTooSmall) ↔
      direction i = .sent ∧ i.wf = true ∧ s.cfg.cap < (encode i).length)

/-- `10_state.md` section 2 (decision D22 of the spec's own; log entry 7): a command faults exactly
when it is a DEC whose range lies inside BUF and includes a byte with no value; no command refuses. -/
def Obligations.OnlyUnwrittenBytesFault : Prop :=
  ∀ (i : Instr) (s : State),
    (∀ f, exec i s = .fault f ↔
      f = .noValue ∧ ∃ n, i = .reply n ∧ n ≤ s.cfg.cap ∧ ∃ a < n, readByte s.buf a = none) ∧
    (∀ r, exec i s ≠ .refused r)

/-- `42_decode.md` section 3 (decision D16 of the spec's own): the frame of REPLY. DEC changes RES and
the window's mark, no byte of BUF and nothing of the host. -/
def Obligations.DecLeavesTheRestAlone : Prop :=
  ∀ (n : Nat) (s t : State), exec (.reply n) s = .next t →
    t = { s with res := t.res, windowLive := t.windowLive } ∧
    ∀ a, readByte t.buf a = readByte s.buf a

/-- `42_decode.md` section 3 (derived in the spec): DEC depends on n and `BUF[0..n)` alone, not on RES
or on any earlier command. -/
def Obligations.DecReadsOnlyItsRange : Prop :=
  ∀ (n : Nat) (s s' : State), s.cfg.cap = s'.cfg.cap →
    (∀ a < n, readByte s.buf a = readByte s'.buf a) →
    (∀ t, exec (.reply n) s = .next t →
      ∃ t', exec (.reply n) s' = .next t' ∧ t'.res = t.res) ∧
    (∀ f, exec (.reply n) s = .fault f → exec (.reply n) s' = .fault f)

/-- `42_decode.md` section 4, round trip (derived in the spec; the layout is decision D8, the window's mark
that DEC sets is log entry 8): a well-formed reply with any id, any status and any data decodes to
them. -/
def Obligations.WellFormedReplyRoundTrips : Prop :=
  ∀ (id status len : Byte) (d : List Byte) (s : State),
    len.toNat = d.length + 2 → 6 + d.length ≤ s.cfg.cap →
    memRead s.buf 0 (6 + d.length) =
      some ([0xFF, 0xFF, id, len, status] ++ d ++ [csum ([id, len, status] ++ d)]) →
    exec (.reply (6 + d.length)) s = .next { s with
      res := .decOk id status 5 d.length, windowLive := true } ∧
    memRead s.buf 5 d.length = some d

/-- `41_encode.md` section 4, property (e) (derived in the spec; the window's mark that DEC sets is log
entry 8): the frame ENC wrote, given to DEC with its own length, decodes with the code byte as
status. -/
def Obligations.EncodedFrameDecodes : Prop :=
  ∀ (i : Instr) (s t : State) (len : Nat) (id : Byte), direction i = .sent → servoId i = some id →
    exec i s = .next t → t.res = .encOk len →
    exec (.reply len) t = .next { t with
      res := .decOk id (byteAt (encode i) 4) 5 (len - 6), windowLive := true }

/-- `42_decode.md` section 2, the source's property: a received reply with one data byte changed and
the checksum not recomputed is ChecksumMismatch (the layout is decision D8 of the spec's own, the
window's mark that a failed DEC clears is log entry 8). -/
def Obligations.FlippedDataByteIsMismatch : Prop :=
  ∀ (id status len b b' : Byte) (d e : List Byte) (s : State),
    len.toNat = d.length + 1 + e.length + 2 → b ≠ b' → 7 + d.length + e.length ≤ s.cfg.cap →
    memRead s.buf 0 (7 + d.length + e.length) =
      some ([0xFF, 0xFF, id, len, status] ++ (d ++ b' :: e) ++
        [csum ([id, len, status] ++ (d ++ b :: e))]) →
    exec (.reply (7 + d.length + e.length)) s = .next { s with
      res := .err .checksumMismatch, windowLive := false }

/-! ## Every command -/

/-- `60_exceptions.md` section 2 (decision D15 of the spec's own): a command that raises changes RES
alone (and the window's mark, log entry 8). -/
def Obligations.FailedCommandChangesResultOnly : Prop :=
  ∀ (i : Instr) (s t : State) (k : ErrKind), exec i s = .next t → t.res = .err k →
    t = { s with res := .err k, windowLive := false }

/-- R190: whatever an earlier command left in RES, an error included, the next command runs by its
ordinary rule. -/
def Obligations.EarlierResultNeverMatters : Prop :=
  ∀ (i : Instr) (s : State) (r : Res), exec i { s with res := r } = exec i s

/-- `20_memory.md` section 3 (derived in the spec): issuing the same command twice leaves what issuing
it once leaves. The canonical form of BUF is the invariant's. -/
def Obligations.CommandsAreIdempotent : Prop :=
  ∀ (i : Instr) (s t : State), s.buf.wf = true → exec i s = .next t → exec i t = .next t

/-! ## The host's access to the block -/

/-- `10_state.md` section 8 (decision D17 of the spec's own): a store inside BUF completes, the bytes
read back, every other byte reads as before, and RES is not changed. (That the run's mark stays is the
model's choice, log entry 9.) -/
def Obligations.StoreThenLoadReturnsBytes : Prop :=
  ∀ (off : Nat) (v : List Byte) (s : State), off + v.length ≤ s.cfg.cap →
    ∃ t, hostStore off v s = .next t ∧ t.res = s.res ∧ SameHost s t ∧ t.marked = s.marked ∧
      hostLoad off v.length t = .next (t, v) ∧
      ∀ a, (a < off ∨ off + v.length ≤ a) → readByte t.buf a = readByte s.buf a

/-- `10_state.md` sections 2 and 8 (decisions D17 and D22 of the spec's own): when a load or a store
stops, and by which name. -/
def Obligations.AccessOutsideOrUnwrittenFaults : Prop :=
  ∀ (off k : Nat) (v : List Byte) (s : State),
    (s.cfg.cap < off + v.length → hostStore off v s = .fault .outsideBuf) ∧
    (s.cfg.cap < off + k → hostLoad off k s = .fault .outsideBuf) ∧
    (off + k ≤ s.cfg.cap → (hostLoad off k s = .fault .noValue ↔
      ∃ j < k, readByte s.buf (off + j) = none))

/-- `10_state.md` section 7 and `70_reset_and_hazards.md` section 3: while the window is live the host
reads the data of the reply that DEC accepted. The mark is log entry 8; the invariant rules out states
in which the mark is set without such a reply. -/
def Obligations.LiveWindowYieldsReplyData : Prop :=
  ∀ s : State, s.Inv → s.windowLive = true →
    ∃ t id status dlen r, runHostStep .window s = .next t ∧ s.res = .decOk id status 5 dlen ∧
      memRead s.buf 0 (dlen + 6) = some r ∧
      decodeReply r = .ok { servoId := id, status := status, data := t.loaded }

/-- `70_reset_and_hazards.md` section 3 with `93_implementation_defined.md` U13 (log entry 8): after a
host store the window of an earlier reply is dead, and reading it faults; after any ENC there is no
window at all. -/
def Obligations.WindowDiesWithTheNextWrite : Prop :=
  (∀ (off : Nat) (v : List Byte) (s t : State) (id status : Byte) (doff dlen : Nat),
    s.res = .decOk id status doff dlen → hostStore off v s = .next t →
    runHostStep .window t = .fault .staleWindow) ∧
  (∀ (i : Instr) (s t : State), direction i = .sent → exec i s = .next t →
    runHostStep .window t = .fault .noSuchField)

/-- `10_state.md` section 5 (decision D3 of the spec's own) with U11: the host can read RES whole, and each
field its shape has; reading another faults. -/
def Obligations.ResultFieldsByShape : Prop :=
  ∀ s : State,
    runHostStep .readRecord s = .next { s with hostRes := .record s.res } ∧
    (∀ f, s.res = .idle → runHostStep (.readRes f) s = .fault .noSuchField) ∧
    (∀ f k, s.res = .err k → runHostStep (.readRes f) s =
      if f = .kind then .next { s with hostRes := .kind k } else .fault .noSuchField) ∧
    (∀ f len, s.res = .encOk len → runHostStep (.readRes f) s =
      if f = .len then .next { s with hostRes := .value len } else .fault .noSuchField) ∧
    (∀ f id status doff dlen, s.res = .decOk id status doff dlen → runHostStep (.readRes f) s =
      match f with
      | .len => .fault .noSuchField
      | .kind => .fault .noSuchField
      | .id => .next { s with hostRes := .value id.toNat }
      | .status => .next { s with hostRes := .value status.toNat }
      | .doff => .next { s with hostRes := .value doff }
      | .dlen => .next { s with hostRes := .value dlen })

/-- `20_memory.md` sections 3 and 5, `10_state.md` section 8: loading, transmitting, reading the window
or RES, enqueueing and reading cached values change neither BUF nor RES nor the window's mark (log entry
8); and the snapshot read returns the cached state whole (`45_host_context.md` section 3). -/
def Obligations.QuietStepsLeaveTheBlockAlone : Prop :=
  ∀ (h : HostStep) (s t : State),
    (h = .tx ∨ h = .window ∨ h = .readRecord ∨ h = .snapshot ∨ (∃ off k, h = .load off k) ∨
      (∃ f, h = .readRes f) ∨ (∃ id g x, h = .moveTo id g x) ∨ (∃ id d x, h = .moveBy id d x) ∨
      ∃ id f, h = .cached id f) →
    runHostStep h s = .next t →
    t.buf = s.buf ∧ t.res = s.res ∧ t.windowLive = s.windowLive ∧
      (h = .snapshot → t.hostRes = .snapshot s.servos)

/-! ## Reset, the step, the invariant -/

/-- `10_state.md` section 9 and `70_reset_and_hazards.md` section 1 (decision D14 of the spec's own; the
parameters of the fixed reset state are log entries 1 and 2): after reset, for every configuration and
at any time, RES is Idle and no byte of BUF holds a value. That a reset of the block leaves the rest is
the model's choice: the run's mark (log entry 9), the channel and the wire (10), the snapshots and the
queue (20), and the model's records of the host (3, 16, 21). -/
def Obligations.ResetHoldsNothing : Prop :=
  State.reset = State.resetWith Config.standard ∧
  (∀ c : Config, (State.resetWith c).cfg = c ∧ (State.resetWith c).res = .idle ∧
    ∀ a, readByte (State.resetWith c).buf a = none) ∧
  (∀ s : State, ∃ t, runHostStep .reset s = .next t ∧ t.res = .idle ∧ SameHost s t ∧
    t.marked = s.marked ∧ ∀ a, readByte t.buf a = none)

/-- `10_state.md` section 6, `30_encoding.md` section 8 (log entry 3): the next host step issues an
instruction, and the step is exec of it on the state without that host step; and an instruction named by
its frame (log entry 4) runs as what the frame decodes to. With no host step left the state stays. -/
def Obligations.StepRunsTheDecodedInstruction : Prop :=
  (∀ (s : State) (i : Instr) (rest : List HostStep), s.program = .issue i :: rest →
    step s = exec i { s with program := rest }) ∧
  (∀ (s : State) (frame : List Byte) (i : Instr) (rest : List HostStep),
    s.program = .code frame :: rest → decode .sent frame = .ok (i, []) →
    step s = exec i { s with program := rest }) ∧
  (∀ s : State, s.program = [] → step s = .next s)

/-- `30_encoding.md` section 7 (decision D12 of the spec's own; that bytes name an instruction is log
entry 4): bytes that are no frame of Ping, Read or Write, and bytes that hold more than one frame, are
refused by name, not run. -/
def Obligations.UnknownInstructionIsRefused : Prop :=
  ∀ (s : State) (frame : List Byte) (rest : List HostStep), s.program = .code frame :: rest →
    (∀ e, decode .sent frame = .error e → step s = .refused .notAnInstruction) ∧
    (∀ i c tail, decode .sent frame = .ok (i, c :: tail) → step s = .refused .notAnInstruction)

/-- The invariant at reset, for every configuration. -/
def Obligations.ResetMeetsInvariant : Prop :=
  ∀ c : Config, (State.resetWith c).Inv

/-- `10_state.md` sections 2, 5 and 7, `45_host_context.md` section 3: every step keeps the invariant:
BUF is canonical and inside CAP, RES is in its ranges and speaks of written bytes, a live window still
holds the reply, the queue is bounded, the snapshots are the configured actuators'. -/
def Obligations.StepKeepsInvariant : Prop :=
  ∀ s t : State, s.Inv → step s = .next t → t.Inv

/-- `00_scope.md` section 3 and `10_state.md` section 5 (decision D3 of the spec's own): no step changes
a parameter. -/
def Obligations.StepKeepsConfiguration : Prop :=
  ∀ s t : State, step s = .next t → t.cfg = s.cfg

/-- `20_memory.md` section 1 and `45_host_context.md` section 1: what has gone out on the wire stays as
it went; a step only adds bytes after it. -/
def Obligations.WireOnlyGrows : Prop :=
  ∀ s t : State, step s = .next t → ∃ bs, t.wireOut = s.wireOut ++ bs

/-- `10_state.md` section 2: a byte of BUF that holds a value holds one until reset. -/
def Obligations.WrittenBytesKeepAValue : Prop :=
  ∀ (s t : State) (a : Nat), s.program.head? ≠ some .reset → step s = .next t →
    readByte s.buf a ≠ none → readByte t.buf a ≠ none

/-! ## The host: dispatcher -/

/-- `45_host_context.md` section 1: `send` with a channel that takes the frame and delivers bytes puts
exactly the encoded frame on the wire, leaves the delivered bytes in BUF, and returns what `Decode` says
of them. (At most CAP bytes are read: log entry 10.) -/
def Obligations.SendReturnsTheDecodedReply : Prop :=
  ∀ (i : Instr) (id : Byte) (s : State) (k : Nat) (v : List Byte) (rest : List Transfer),
    servoId i = some id → id.toNat ≤ 253 → i.wf = true → (encode i).length ≤ s.cfg.cap →
    s.channel = { write := .accepts k, read := .delivers v } :: rest → (encode i).length ≤ k →
    ∃ t, send i s = .next (t,
        match decodeReply (v.take s.cfg.cap) with
        | .ok rep => .ok rep
        | .error e => .error (.codec e)) ∧
      t.wireOut = s.wireOut ++ encode i ∧ t.channel = rest ∧
      memRead t.buf 0 (v.take s.cfg.cap).length = some (v.take s.cfg.cap)

/-- `45_host_context.md` section 1 (derived in the spec): a failed write is TransportWrite and no read
follows, so that BUF is as the ENC left it; a failed read is TransportRead and no DEC follows. (That one
answer of the channel serves the write and the read of a frame, and that a failed read may deposit bytes,
is log entry 10.) -/
def Obligations.SendStopsAtTransportFailure : Prop :=
  ∀ (i : Instr) (id : Byte) (s : State) (x : Transfer) (rest : List Transfer),
    servoId i = some id → id.toNat ≤ 253 → i.wf = true → (encode i).length ≤ s.cfg.cap →
    s.channel = x :: rest →
    (∀ k, x.write = .fails k → ∃ t, send i s = .next (t, .error .transportWrite) ∧
      t.channel = rest ∧ t.res = .encOk (encode i).length ∧
      t.wireOut = s.wireOut ++ (encode i).take k ∧
      memRead t.buf 0 (encode i).length = some (encode i) ∧
      ∀ a, (encode i).length ≤ a → readByte t.buf a = readByte s.buf a) ∧
    (∀ k v, x.write = .accepts k → (encode i).length ≤ k → x.read = .fails v →
      ∃ t, send i s = .next (t, .error .transportRead) ∧
        t.channel = rest ∧ t.res = .encOk (encode i).length ∧
        t.wireOut = s.wireOut ++ encode i)

/-- `45_host_context.md` sections 1 and 3 (derived): `send` of an instruction to a single actuator
always returns to its caller, whatever the channel (log entry 10) answers: it neither faults nor
refuses. -/
def Obligations.SendAlwaysReturns : Prop :=
  ∀ (i : Instr) (id : Byte) (s : State), servoId i = some id → id.toNat ≤ 253 →
    ∃ t r, send i s = .next (t, r)

/-- `30_encoding.md` section 7 and U7 (decision D20 of the spec's own; log entry 22): every operation of
the host on one actuator refuses an id above 253 by name, a relative move where the id is configured at
all (log entry 18), though ENC itself accepts it. -/
def Obligations.HostRefusesUnexercisedIds : Prop :=
  ∀ (id : Byte) (s : State), 253 < id.toNat →
    (∀ i, servoId i = some id → send i s = .refused .outsideExercisedSubset ∧
      runHostStep (.send i) s = .refused .outsideExercisedSubset ∧ ∃ t, exec i s = .next t) ∧
    (∀ h : HostStep,
      (h = .enableTorque id ∨ h = .disableTorque id ∨ h = .readTorque id ∨ h = .isMoving id ∨
        h = .hasError id ∨ (∃ f, h = .readValue id f) ∨ (∃ r, h = .readU8 id r) ∨
        (∃ r, h = .readU16 id r) ∨ (∃ p x, h = .writePosition id p x) ∨
        (∃ g x, h = .moveTo id g x) ∨
        ∃ d x, h = .moveBy id d x ∧ findServo id s ≠ none) →
      runHostStep h s = .refused .outsideExercisedSubset)

/-! ## The host: registers -/

/-- `20_memory.md` section 2: the two payload bytes of a 16-bit value are its low byte, then its high
byte, and reading them back gives the value; the source's two examples. -/
def Obligations.PayloadValuesAreLittleEndian : Prop :=
  (∀ v : Half, ∃ lo hi, le16 v = [lo, hi] ∧ lo.toNat = v.toNat % 256 ∧ hi.toNat = v.toNat / 256 ∧
    ofLe16 lo hi = v) ∧
  (∀ lo hi : Byte, (ofLe16 lo hi).toNat = lo.toNat + 256 * hi.toNat) ∧
  le16 2048 = [0x00, 0x08] ∧ le16 1000 = [0xE8, 0x03]

/-- `45_host_context.md` section 2 (decision D25 of the spec's own; the status test is log entries 12 and 31):
`read_u8` and `read_u16` are one Read each, and take the first data byte or the first two; too few is a
fault (U12). -/
def Obligations.RegisterReadsTakeFirstBytes : Prop :=
  ∀ (id register : Byte) (s t : State) (rep : Reply),
    (t.cfg.readTestsStatus = true → rep.status = 0) →
    (send (.read id register 1) s = .next (t, .ok rep) →
      readU8 id register s =
        match rep.data with
        | b :: _ => .next (t, .ok b)
        | [] => .fault .shortReply) ∧
    (send (.read id register 2) s = .next (t, .ok rep) →
      readU16 id register s =
        match rep.data with
        | lo :: hi :: _ => .next (t, .ok (ofLe16 lo hi))
        | _ => .fault .shortReply)

/-- R148: a position write is one Write to 0x2A whose payload is the position, then the speed,
then the acceleration, two little-endian bytes each; its frame has 9, 11 or 13 bytes. -/
def Obligations.PositionWriteFrames : Prop :=
  ∀ (id : Byte) (p v a : Half) (s : State),
    writePosition id p .none s = send (.write id 0x2A (le16 p)) s ∧
    writePosition id p (.speed v) s = send (.write id 0x2A (le16 p ++ le16 v)) s ∧
    writePosition id p (.speedAccel v a) s = send (.write id 0x2A (le16 p ++ le16 v ++ le16 a)) s ∧
    (encode (.write id 0x2A (le16 p))).length = 9 ∧
    (encode (.write id 0x2A (le16 p ++ le16 v))).length = 11 ∧
    (encode (.write id 0x2A (le16 p ++ le16 v ++ le16 a))).length = 13

/-! ## The host: servo state and queue -/

/-- `45_host_context.md` section 3 (one shared queue is log entry 15): an enqueue pushes exactly one
command, and at capacity it returns CommandOverflow and leaves the queue as it was. (Ids above 253 are
log entry 22; the cached goal is log entry 14.) -/
def Obligations.EnqueuePushesOneOrOverflows : Prop :=
  ∀ (c : MoveCommand) (s : State), c.id.toNat ≤ 253 →
    (s.queue.length < s.cfg.qcap → ∃ t, enqueue c s = .next t ∧ t.queue = c :: s.queue ∧
      t.hostRes = .done) ∧
    (s.cfg.qcap ≤ s.queue.length →
      enqueue c s = .next { s with hostRes := .error .commandOverflow })

/-- `45_host_context.md` section 3, relative moves (that the sum is exact for every integer delta is log
entry 17, the one shared queue log entry 15, ids above 253 log entry 22): a relative move goes to the Euclidean remainder mod 4096 of the cached goal plus the delta,
always 0 to 4095; the source's sequence 100, 10, 4086, 10. -/
def Obligations.RelativeMoveWrapsEuclidean : Prop :=
  (∀ (id : Byte) (delta : Int) (tail : MoveTail) (s : State) (info : ServoInfo),
    findServo id s = some info → id.toNat ≤ 253 → s.queue.length < s.cfg.qcap →
    ∃ t target, enqueueRelative id delta tail s = .next t ∧
      t.queue = { id := id, target := target, tail := tail } :: s.queue ∧
      (target.toNat : Int) = ((info.goal.toNat : Int) + delta) % 4096 ∧ target.toNat < 4096) ∧
  newGoal 100 (-90) = 10 ∧ newGoal 10 (-20) = 4086 ∧ newGoal 4086 20 = 10

/-- R157: a tick on an empty queue is a success that does nothing; otherwise exactly one command leaves
the queue, is flushed by `write_position`, and is gone whatever comes of it. -/
def Obligations.TickFlushesExactlyOneMove : Prop :=
  (∀ s : State, s.queue = [] → processQueue s = .next { s with hostRes := .done }) ∧
  (∀ (s : State) (c : MoveCommand) (rest : List MoveCommand), s.queue = c :: rest →
    c.id.toNat ≤ 253 →
    ∃ t r, writePosition c.id c.target c.tail { s with queue := rest } = .next (t, r) ∧
      t.queue = rest ∧
      processQueue s = .next { t with hostRes :=
        match r with
        | .ok rep => if rep.status = 0 then .done else .error (.statusError rep.status)
        | .error e => .error e })

/-- `45_host_context.md` section 3 (decision D24 of the spec's own): last in, first out: the move
enqueued last is the one the next tick sends, and the queue is then what it was before it. -/
def Obligations.LastMoveQueuedIsFlushedFirst : Prop :=
  ∀ (c : MoveCommand) (s s' t : State), c.id.toNat ≤ 253 → s.queue.length < s.cfg.qcap →
    enqueue c s = .next s' → processQueue s' = .next t →
    t.queue = s.queue ∧
    ∃ u r, writePosition c.id c.target c.tail { s' with queue := s.queue } = .next (u, r) ∧
      t = { u with hostRes := t.hostRes }

/-- `45_host_context.md` section 3 (decision D27 of the spec's own; that one answer of the channel serves
the write and the read of a frame is log entry 10): a transport failure on the first read of an actuator
leaves its cached values as they are, and the refresh uses no further answer. -/
def Obligations.TransportFailureLeavesValuesStale : Prop :=
  ∀ (prev : ServoInfo) (s : State) (x : Transfer) (rest : List Transfer),
    prev.id.toNat ≤ 253 → 8 ≤ s.cfg.cap → s.channel = x :: rest →
    ((∃ k, x.write = .fails k) ∨ ∃ v, x.read = .fails v) →
    ∃ t, refreshServo prev s = .next (t, prev) ∧ t.channel = rest

/-- `45_host_context.md` section 3 with U5 (decision D27 of the spec's own; log entry 16): what the
refresh does with the outcome of each register read. A read that succeeds overwrites the field, a flag as
whether the value is not 0, and no other field; a field whose read failed takes the default or its
previous value; which, is a free choice. -/
def Obligations.FailedFieldFallsBack : Prop :=
  (∀ (f : Field) (fs : List Field) (prev info : ServoInfo) (s t : State) (r : Except HostError Half),
    readField prev.id f s = .next (t, r) →
    refreshFields (f :: fs) prev info s =
      refreshFields fs prev (fillField f prev info r t).2 (fillField f prev info r t).1) ∧
  (∀ (prev : ServoInfo) (s t : State) (r : Except HostError Half),
    readField prev.id .position s = .next (t, r) → (∀ e, r = .error e → isTransport e = false) →
    refreshServo prev s = refreshFields laterFields prev (fillField .position prev prev r t).2
      (fillField .position prev prev r t).1) ∧
  (∀ (f : Field) (prev info : ServoInfo) (v : Half) (s : State),
    ∃ info', fillField f prev info (.ok v) s = (s, info') ∧
      getField info' f =
        (if f = .moving ∨ f = .error then (if v = 0 then 0 else 1) else v) ∧
      info'.id = info.id ∧ info'.goal = info.goal ∧ ∀ g ≠ f, getField info' g = getField info g) ∧
  (∀ (f : Field) (prev info : ServoInfo) (e : HostError) (s : State),
    ((fillField f prev info (.error e) s).2 = setField info f (getField prev f) ∨
      (fillField f prev info (.error e) s).2 = setField info f (getField s.cfg.defaults f)) ∧
    (fillField f prev info (.error e) s).1 = { s with freeCount := s.freeCount + 1 })
end

