-- ==== Sys2Proof/Laws/State.lean ====
section
/-! SUPPORT. What each named update of the state does to each field, true by definition, so that no proof
unfolds an update. -/

namespace Sys2Proof.Machine

variable (s : State) (k : ErrKind) (id : Byte) (f : List Byte) (rep : Reply) (n : Nat)

@[simp] theorem raise_cfg : (raise k s).cfg = s.cfg := rfl
@[simp] theorem raise_buf : (raise k s).buf = s.buf := rfl
@[simp] theorem raise_res : (raise k s).res = .err k := rfl
@[simp] theorem raise_windowLive : (raise k s).windowLive = false := rfl
@[simp] theorem raise_marked : (raise k s).marked = s.marked := rfl
@[simp] theorem raise_loaded : (raise k s).loaded = s.loaded := rfl
@[simp] theorem raise_program : (raise k s).program = s.program := rfl
@[simp] theorem raise_wireOut : (raise k s).wireOut = s.wireOut := rfl
@[simp] theorem raise_channel : (raise k s).channel = s.channel := rfl
@[simp] theorem raise_servos : (raise k s).servos = s.servos := rfl
@[simp] theorem raise_queue : (raise k s).queue = s.queue := rfl
@[simp] theorem raise_hostRes : (raise k s).hostRes = s.hostRes := rfl
@[simp] theorem raise_freeCount : (raise k s).freeCount = s.freeCount := rfl

@[simp] theorem writeFrame_cfg : (writeFrame id f s).cfg = s.cfg := rfl
@[simp] theorem writeFrame_buf : (writeFrame id f s).buf = memWrite s.buf 0 f := rfl
@[simp] theorem writeFrame_res : (writeFrame id f s).res = .encOk f.length := rfl
@[simp] theorem writeFrame_windowLive : (writeFrame id f s).windowLive = false := rfl
@[simp] theorem writeFrame_marked : (writeFrame id f s).marked = (s.marked || decide (253 < id.toNat)) := rfl
@[simp] theorem writeFrame_loaded : (writeFrame id f s).loaded = s.loaded := rfl
@[simp] theorem writeFrame_program : (writeFrame id f s).program = s.program := rfl
@[simp] theorem writeFrame_wireOut : (writeFrame id f s).wireOut = s.wireOut := rfl
@[simp] theorem writeFrame_channel : (writeFrame id f s).channel = s.channel := rfl
@[simp] theorem writeFrame_servos : (writeFrame id f s).servos = s.servos := rfl
@[simp] theorem writeFrame_queue : (writeFrame id f s).queue = s.queue := rfl
@[simp] theorem writeFrame_hostRes : (writeFrame id f s).hostRes = s.hostRes := rfl
@[simp] theorem writeFrame_freeCount : (writeFrame id f s).freeCount = s.freeCount := rfl

@[simp] theorem acceptReply_cfg : (acceptReply rep n s).cfg = s.cfg := rfl
@[simp] theorem acceptReply_buf : (acceptReply rep n s).buf = s.buf := rfl
@[simp] theorem acceptReply_res : (acceptReply rep n s).res = .decOk rep.servoId rep.status 5 (n - minReply) := rfl
@[simp] theorem acceptReply_windowLive : (acceptReply rep n s).windowLive = true := rfl
@[simp] theorem acceptReply_marked : (acceptReply rep n s).marked = s.marked := rfl
@[simp] theorem acceptReply_loaded : (acceptReply rep n s).loaded = s.loaded := rfl
@[simp] theorem acceptReply_program : (acceptReply rep n s).program = s.program := rfl
@[simp] theorem acceptReply_wireOut : (acceptReply rep n s).wireOut = s.wireOut := rfl
@[simp] theorem acceptReply_channel : (acceptReply rep n s).channel = s.channel := rfl
@[simp] theorem acceptReply_servos : (acceptReply rep n s).servos = s.servos := rfl
@[simp] theorem acceptReply_queue : (acceptReply rep n s).queue = s.queue := rfl
@[simp] theorem acceptReply_hostRes : (acceptReply rep n s).hostRes = s.hostRes := rfl
@[simp] theorem acceptReply_freeCount : (acceptReply rep n s).freeCount = s.freeCount := rfl

@[simp] theorem resetBlock_cfg : (resetBlock s).cfg = s.cfg := rfl
@[simp] theorem resetBlock_buf : (resetBlock s).buf = [] := rfl
@[simp] theorem resetBlock_res : (resetBlock s).res = .idle := rfl
@[simp] theorem resetBlock_windowLive : (resetBlock s).windowLive = false := rfl
@[simp] theorem resetBlock_marked : (resetBlock s).marked = s.marked := rfl
@[simp] theorem resetBlock_loaded : (resetBlock s).loaded = s.loaded := rfl
@[simp] theorem resetBlock_program : (resetBlock s).program = s.program := rfl
@[simp] theorem resetBlock_wireOut : (resetBlock s).wireOut = s.wireOut := rfl
@[simp] theorem resetBlock_channel : (resetBlock s).channel = s.channel := rfl
@[simp] theorem resetBlock_servos : (resetBlock s).servos = s.servos := rfl
@[simp] theorem resetBlock_queue : (resetBlock s).queue = s.queue := rfl
@[simp] theorem resetBlock_hostRes : (resetBlock s).hostRes = s.hostRes := rfl
@[simp] theorem resetBlock_freeCount : (resetBlock s).freeCount = s.freeCount := rfl

end Sys2Proof.Machine
end

