-- ==== Sys2Proof/Laws/Memory.lean ====
section
/-! SUPPORT. The laws of BUF: a read after a write, the bytes a write leaves alone, and that every write
keeps the canonical form. -/

namespace Sys2Proof.Machine

/-! ## One byte -/

@[simp] theorem readByte_writeByte_self (m : Memory) (a : Nat) (b : Byte) :
    readByte (writeByte m a b) a = some b := by
  induction m with
  | nil => simp [writeByte, readByte]
  | cons c m ih =>
    obtain ⟨k, v⟩ := c
    unfold writeByte
    split
    · simp [readByte]
    · split
      · simp [readByte]
      · rw [readByte, if_neg (by omega), ih]

theorem readByte_writeByte_of_ne (m : Memory) {a c : Nat} (b : Byte) (h : c ≠ a) :
    readByte (writeByte m a b) c = readByte m c := by
  induction m with
  | nil => simp [writeByte, readByte, h.symm]
  | cons d m ih =>
    obtain ⟨k, v⟩ := d
    unfold writeByte
    split
    · simp [readByte, h.symm]
    · split
      · rename_i hk
        subst hk
        simp [readByte, h.symm]
      · simp [readByte, ih]

/-! ## Byte sequences -/

theorem readByte_memWrite_before (m : Memory) (off : Nat) (v : List Byte) {a : Nat} (h : a < off) :
    readByte (memWrite m off v) a = readByte m a := by
  induction v generalizing m off with
  | nil => rfl
  | cons b v ih =>
    rw [memWrite, ih _ _ (by omega), readByte_writeByte_of_ne _ _ (by omega)]

/-- What every byte reads as after a write of a sequence. -/
theorem readByte_memWrite (m : Memory) (off : Nat) (v : List Byte) (a : Nat) :
    readByte (memWrite m off v) a =
      if off ≤ a ∧ a < off + v.length then v[a - off]? else readByte m a := by
  induction v generalizing m off with
  | nil => rw [memWrite, if_neg]; simp only [List.length_nil]; omega
  | cons b v ih =>
    rw [memWrite, ih]
    by_cases ha : a = off
    · subst ha; simp
    · by_cases hin : off + 1 ≤ a ∧ a < off + 1 + v.length
      · rw [if_pos hin, if_pos ⟨by omega, by simp only [List.length_cons]; omega⟩]
        obtain ⟨j, rfl⟩ : ∃ j, a = off + 1 + j := ⟨a - (off + 1), by omega⟩
        rw [show off + 1 + j - off = j + 1 by omega, show off + 1 + j - (off + 1) = j by omega,
          List.getElem?_cons_succ]
      · rw [if_neg hin, if_neg (by simp only [List.length_cons]; omega),
          readByte_writeByte_of_ne _ _ ha]

theorem memRead_length {m : Memory} {off n : Nat} {r : List Byte} (h : memRead m off n = some r) :
    r.length = n := by
  induction n generalizing off r with
  | zero => simp [memRead] at h; subst h; rfl
  | succ n ih =>
    rw [memRead] at h
    split at h
    · rename_i hr
      simp only [Option.some.injEq] at h
      subst h
      simp [ih hr]
    · simp at h

/-- A range read is its bytes read one by one. -/
theorem memRead_eq_some (m : Memory) (off n : Nat) (r : List Byte) :
    memRead m off n = some r ↔ r.length = n ∧ ∀ j < n, readByte m (off + j) = r[j]? := by
  induction n generalizing off r with
  | zero =>
    rw [memRead]
    constructor
    · intro h; simp at h; subst h; simp
    · rintro ⟨h, -⟩; rw [List.length_eq_zero_iff.mp h]
  | succ n ih =>
    constructor
    · intro h
      refine ⟨memRead_length h, ?_⟩
      rw [memRead] at h
      split at h
      · rename_i b bs hb hbs
        simp only [Option.some.injEq] at h
        subst h
        intro j hj
        cases j with
        | zero => simpa using hb
        | succ j =>
          rw [List.getElem?_cons_succ, ← ((ih _ _).mp hbs).2 j (by omega)]
          congr 1
          omega
      · simp at h
    · rintro ⟨hl, h⟩
      cases r with
      | nil => simp at hl
      | cons b bs =>
        have hb := h 0 (by omega)
        have hbs : memRead m (off + 1) n = some bs := by
          refine (ih _ _).mpr ⟨by simpa using hl, fun j hj => ?_⟩
          have := h (j + 1) (by omega)
          rw [List.getElem?_cons_succ] at this
          rw [← this]
          congr 1
          omega
        simp only [Nat.add_zero, List.getElem?_cons_zero] at hb
        rw [memRead, hb, hbs]

/-- A range read has no result exactly when some byte of it holds no value. -/
theorem memRead_eq_none (m : Memory) (off n : Nat) :
    memRead m off n = none ↔ ∃ j < n, readByte m (off + j) = none := by
  induction n generalizing off with
  | zero => simp [memRead]
  | succ n ih =>
    rw [memRead]
    split
    · rename_i b bs hb hbs
      refine iff_of_false (by simp) ?_
      rintro ⟨j, hj, h⟩
      cases j with
      | zero => rw [Nat.add_zero, hb] at h; simp at h
      | succ j =>
        have : memRead m (off + 1) n = none :=
          (ih _).mpr ⟨j, by omega, by rw [← h]; congr 1; omega⟩
        rw [hbs] at this
        simp at this
    · rename_i h
      refine iff_of_true rfl ?_
      cases hb : readByte m off with
      | none => exact ⟨0, by omega, hb⟩
      | some b =>
        cases hbs : memRead m (off + 1) n with
        | some bs => exact absurd hbs (h b bs hb)
        | none =>
          obtain ⟨j, hj, hn⟩ := (ih _).mp hbs
          exact ⟨j + 1, by omega, by rw [← hn]; congr 1; omega⟩

/-- The bytes just written read back. -/
theorem memRead_memWrite_self (m : Memory) (off : Nat) (v : List Byte) :
    memRead (memWrite m off v) off v.length = some v := by
  refine (memRead_eq_some _ _ _ _).mpr ⟨rfl, fun j hj => ?_⟩
  rw [readByte_memWrite, if_pos ⟨by omega, by omega⟩, Nat.add_sub_cancel_left]

/-- Two memories that agree on a range give the same range read. -/
theorem memRead_congr {m m' : Memory} {off n : Nat}
    (h : ∀ j < n, readByte m (off + j) = readByte m' (off + j)) :
    memRead m off n = memRead m' off n := by
  induction n generalizing off with
  | zero => rfl
  | succ n ih =>
    have h0 : readByte m off = readByte m' off := by simpa using h 0 (by omega)
    have ht : memRead m (off + 1) n = memRead m' (off + 1) n := ih fun j hj => by
      have := h (j + 1) (by omega)
      rwa [show off + (j + 1) = off + 1 + j by omega] at this
    rw [memRead, memRead, h0, ht]

/-- A part of a range that reads, reads as that part. -/
theorem memRead_slice {m : Memory} {n : Nat} {r : List Byte} (h : memRead m 0 n = some r) {a b : Nat}
    (hab : a ≤ b) (hb : b ≤ n) : memRead m a (b - a) = some (slice r a b) := by
  obtain ⟨hl, hr⟩ := (memRead_eq_some _ _ _ _).mp h
  refine (memRead_eq_some _ _ _ _).mpr ⟨by simp [slice]; omega, fun j hj => ?_⟩
  rw [slice, List.getElem?_take_of_lt hj, List.getElem?_drop]
  simpa using hr (a + j) (by omega)

/-- A write never takes a value away. -/
theorem memRead_isSome_memWrite {m : Memory} {off n : Nat} (off' : Nat) (v : List Byte)
    (h : (memRead m off n).isSome) : (memRead (memWrite m off' v) off n).isSome := by
  rw [Option.isSome_iff_ne_none] at h ⊢
  intro hn
  obtain ⟨j, hj, hnone⟩ := (memRead_eq_none _ _ _).mp hn
  refine h ((memRead_eq_none _ _ _).mpr ⟨j, hj, ?_⟩)
  rw [readByte_memWrite] at hnone
  split at hnone
  · rename_i hin
    rw [List.getElem?_eq_none_iff] at hnone
    omega
  · exact hnone

/-! ## The canonical form -/

theorem Memory.wf_cons (c : Host.Cell) (m : Memory) :
    Memory.wf (c :: m) = true ↔ (∀ d ∈ m.head?, c.1 < d.1) ∧ Memory.wf m = true := by
  cases m with
  | nil => simp [Memory.wf]
  | cons d m => simp [Memory.wf]

theorem head?_writeByte (m : Memory) (a : Nat) (b : Byte) :
    ∀ d ∈ (writeByte m a b).head?, d.1 = a ∨ d ∈ m.head? := by
  cases m with
  | nil => simp [writeByte]
  | cons c m =>
    obtain ⟨k, v⟩ := c
    unfold writeByte
    split
    · simp
    · split <;> simp

theorem writeByte_wf {m : Memory} (a : Nat) (b : Byte) (h : m.wf = true) :
    (writeByte m a b).wf = true := by
  induction m with
  | nil => rfl
  | cons c m ih =>
    obtain ⟨k, v⟩ := c
    obtain ⟨hh, hm⟩ := (Memory.wf_cons _ _).mp h
    unfold writeByte
    split
    · rename_i hlt
      exact (Memory.wf_cons _ _).mpr ⟨by simpa using hlt, h⟩
    · split
      · rename_i _ heq
        subst heq
        exact (Memory.wf_cons _ _).mpr ⟨hh, hm⟩
      · refine (Memory.wf_cons _ _).mpr ⟨fun d hd => ?_, ih hm⟩
        rcases head?_writeByte m a b d hd with he | he
        · show k < d.1
          omega
        · exact hh d he

/-- Every write keeps the canonical form. -/
theorem memWrite_wf {m : Memory} (off : Nat) (v : List Byte) (h : m.wf = true) :
    (memWrite m off v).wf = true := by
  induction v generalizing m off with
  | nil => exact h
  | cons b v ih => exact ih _ (writeByte_wf _ _ h)

theorem reset_buf_wf : State.reset.buf.wf = true := rfl

theorem mem_writeByte {m : Memory} {a : Nat} {b : Byte} {c : Host.Cell} (h : c ∈ writeByte m a b) :
    c.1 = a ∨ c ∈ m := by
  induction m with
  | nil => simp [writeByte] at h; simp [h]
  | cons d m ih =>
    obtain ⟨k, v⟩ := d
    unfold writeByte at h
    split at h
    · rcases List.mem_cons.mp h with rfl | h
      · exact .inl rfl
      · exact .inr h
    · split at h
      · rcases List.mem_cons.mp h with rfl | h
        · exact .inl rfl
        · exact .inr (List.mem_cons_of_mem _ h)
      · rcases List.mem_cons.mp h with rfl | h
        · exact .inr (List.mem_cons_self ..)
        · exact (ih h).imp id (List.mem_cons_of_mem _)

/-- A write lists no offset outside the range it writes. -/
theorem mem_memWrite {m : Memory} {off : Nat} {v : List Byte} {c : Host.Cell}
    (h : c ∈ memWrite m off v) : (off ≤ c.1 ∧ c.1 < off + v.length) ∨ c ∈ m := by
  induction v generalizing m off with
  | nil => exact .inr h
  | cons b v ih =>
    rcases ih h with h' | h'
    · exact .inl ⟨by omega, by simp only [List.length_cons]; omega⟩
    · rcases mem_writeByte h' with h'' | h''
      · exact .inl ⟨by omega, by simp only [List.length_cons]; omega⟩
      · exact .inr h''

/-- In canonical form, writing the value a byte already holds changes nothing. -/
theorem writeByte_of_readByte {m : Memory} {a : Nat} {b : Byte} (hw : m.wf = true)
    (h : readByte m a = some b) : writeByte m a b = m := by
  induction m with
  | nil => simp [readByte] at h
  | cons c m ih =>
    obtain ⟨k, v⟩ := c
    obtain ⟨hh, hm⟩ := (Memory.wf_cons _ _).mp hw
    have hlt : ∀ {m : Memory} {k : Nat}, (∀ d ∈ m.head?, k < d.1) → m.wf = true → ∀ a ≤ k,
        readByte m a = none := by
      intro m
      induction m with
      | nil => intros; rfl
      | cons d m ih =>
        intro k hk hw a ha
        obtain ⟨hd, hm⟩ := (Memory.wf_cons _ _).mp hw
        have := hk d (by simp)
        rw [readByte, if_neg (by omega)]
        exact ih hd hm a (by omega)
    by_cases hk : k = a
    · subst hk
      rw [readByte, if_pos rfl] at h
      rw [writeByte, if_neg (by omega), if_pos rfl]
      simp only [Option.some.injEq] at h
      rw [h]
    · rw [readByte, if_neg hk] at h
      have hak : ¬ a < k := fun hak => by
        rw [hlt hh hm a (by omega)] at h
        simp at h
      rw [writeByte, if_neg hak, if_neg (by omega), ih hm h]

/-- In canonical form, writing what a range already holds changes nothing. -/
theorem memWrite_of_memRead {m : Memory} {off : Nat} {v : List Byte} (hw : m.wf = true)
    (h : memRead m off v.length = some v) : memWrite m off v = m := by
  induction v generalizing off with
  | nil => rfl
  | cons b v ih =>
    have hall := ((memRead_eq_some _ _ _ _).mp h).2
    rw [memWrite, writeByte_of_readByte hw (by simpa using hall 0 (by simp))]
    refine ih ((memRead_eq_some _ _ _ _).mpr ⟨rfl, fun j hj => ?_⟩)
    have := hall (j + 1) (by simpa using hj)
    rw [List.getElem?_cons_succ] at this
    rw [← this]
    congr 1
    omega

end Sys2Proof.Machine
end

