-- ==== Sys2Proof/Laws/Commands.lean ====
section
/-! SUPPORT. What each shared operation and each command can do, said once: proofs cite these and unfold
no operation. -/

namespace Sys2Proof.Machine

/-! ## Outcomes -/

section
variable {σ τ : Type}

@[simp] theorem andThen_next (s : σ) (f : σ → Host.Outcome τ Fault Refusal) :
    andThen (.next s) f = f s := rfl

@[simp] theorem andThen_fault (r : Fault) (f : σ → Host.Outcome τ Fault Refusal) :
    andThen (.fault r) f = .fault r := rfl

@[simp] theorem andThen_refused (r : Refusal) (f : σ → Host.Outcome τ Fault Refusal) :
    andThen (.refused r) f = .refused r := rfl

/-- A sequence that answers next went through a next state. -/
theorem andThen_eq_next {x : Host.Outcome σ Fault Refusal} {f : σ → Host.Outcome τ Fault Refusal}
    {t : τ} : andThen x f = .next t ↔ ∃ s, x = .next s ∧ f s = .next t := by
  cases x <;> simp [andThen]

end

/-! ## Frames -/

@[simp] theorem framed_length (body : List Byte) : (framed body).length = body.length + 3 := by
  simp [framed]

theorem lowByte_toNat {v : Nat} (h : v < 256) : (lowByte v).toNat = v := by
  simp [lowByte, Nat.mod_eq_of_lt h]

theorem encode_length_ping (id : Byte) : (encode (.ping id)).length = 6 := rfl

theorem encode_length_read (id addr rlen : Byte) : (encode (.read id addr rlen)).length = 8 := rfl

theorem encode_length_write (id addr : Byte) (pay : List Byte) :
    (encode (.write id addr pay)).length = 7 + pay.length := by
  simp [encode, writeBody]
  omega

theorem replyFrame_length (id status : Byte) (data : List Byte) :
    (replyFrame id status data).length = 6 + data.length := by
  simp [replyFrame, replyBody]
  omega

theorem encode_length_reply (n : Nat) : (encode (.reply n)).length = 6 + (n - 6) := by
  simp [encode, replyFrame_length, minReply]

/-! ## ENC -/

/-- ENC of a frame raises BufferTooSmall or writes the frame. -/
theorem encFrame_cases (id : Byte) (f : List Byte) (s : State) :
    (s.cfg.cap < f.length ∧ encFrame id f s = raise .bufferTooSmall s) ∨
    (f.length ≤ s.cfg.cap ∧ encFrame id f s = writeFrame id f s) := by
  unfold encFrame
  split
  · exact .inl ⟨‹_›, rfl⟩
  · exact .inr ⟨by omega, rfl⟩

/-- The three forms of ENC as one: Oversize for an instruction that has no frame, else its frame. -/
theorem exec_of_sent {i : Instr} {id : Byte} (h : servoId i = some id) (s : State) :
    exec i s = .next (if i.wf then encFrame id (encode i) s else raise .oversize s) := by
  cases i with
  | ping j => simp only [servoId, Option.some.injEq] at h; subst h; rfl
  | read j a r => simp only [servoId, Option.some.injEq] at h; subst h; rfl
  | write j a pay =>
    simp only [servoId, Option.some.injEq] at h
    subst h
    have hw : (Instr.write j a pay).wf = decide (pay.length ≤ 252) := by
      simp [Instr.wf, Instr.payloadFits, Instr.countMinimal, Instr.countMaximal]
    rw [hw, exec, execWrite]
    by_cases hp : pay.length ≤ 252
    · rw [if_neg (show ¬ maxPay < pay.length by unfold maxPay; omega), if_pos (by simpa using hp)]
    · rw [if_pos (show maxPay < pay.length by unfold maxPay; omega), if_neg (by simpa using hp)]
  | reply n => simp [servoId] at h

theorem servoId_of_sent {i : Instr} (h : direction i = .sent) : ∃ id, servoId i = some id := by
  cases i <;> simp [direction, servoId] at h ⊢

theorem sent_of_servoId {i : Instr} {id : Byte} (h : servoId i = some id) : direction i = .sent := by
  cases i <;> simp [direction, servoId] at h ⊢

/-- Everything ENC can do: Oversize, BufferTooSmall, or the frame written. -/
theorem exec_sent_cases {i : Instr} {s t : State} (h : direction i = .sent) (he : exec i s = .next t) :
    ∃ id, servoId i = some id ∧
      ((i.wf = false ∧ t = raise .oversize s) ∨
       (i.wf = true ∧ s.cfg.cap < (encode i).length ∧ t = raise .bufferTooSmall s) ∨
       (i.wf = true ∧ (encode i).length ≤ s.cfg.cap ∧ t = writeFrame id (encode i) s)) := by
  obtain ⟨id, hid⟩ := servoId_of_sent h
  rw [exec_of_sent hid] at he
  refine ⟨id, hid, ?_⟩
  cases hw : i.wf with
  | false => simp [hw] at he; exact .inl ⟨rfl, he.symm⟩
  | true =>
    simp only [hw, if_true, Host.Outcome.next.injEq] at he
    rcases encFrame_cases id (encode i) s with ⟨hc, hf⟩ | ⟨hc, hf⟩
    · exact .inr (.inl ⟨rfl, hc, by rw [← he, hf]⟩)
    · exact .inr (.inr ⟨rfl, hc, by rw [← he, hf]⟩)

/-- ENC of an instruction whose frame exists and fits. -/
theorem exec_sent_fits {i : Instr} {id : Byte} {s : State} (h : servoId i = some id)
    (hw : i.wf = true) (hc : (encode i).length ≤ s.cfg.cap) :
    exec i s = .next (writeFrame id (encode i) s) := by
  rw [exec_of_sent h, hw]
  rcases encFrame_cases id (encode i) s with ⟨hc', -⟩ | ⟨-, hf⟩
  · omega
  · simp [hf]

theorem sent_length {i : Instr} (h : direction i = .sent) (hw : i.wf = true) :
    6 ≤ (encode i).length ∧ (encode i).length ≤ 259 := by
  cases i with
  | ping id => simp [encode_length_ping]
  | read id a r => simp [encode_length_read]
  | write id a pay =>
    simp only [Instr.wf, Instr.payloadFits, Instr.countMinimal, Instr.countMaximal, Bool.and_true,
      decide_eq_true_eq] at hw
    rw [encode_length_write]
    omega
  | reply n => simp [direction] at h

/-! ## DEC -/

/-- Everything `Decode` can answer, in the order of its checks. -/
theorem decodeReply_cases (r : List Byte) :
    (headerOk r = false ∧ decodeReply r = .error .invalidHeader) ∨
    (headerOk r = true ∧ lengthOk r = false ∧ decodeReply r = .error .lengthError) ∨
    (headerOk r = true ∧ lengthOk r = true ∧ checksumOk r = false ∧
      decodeReply r = .error .checksumMismatch) ∨
    (headerOk r = true ∧ lengthOk r = true ∧ checksumOk r = true ∧
      decodeReply r = .ok
        { servoId := byteAt r 2, status := byteAt r 4, data := slice r 5 (r.length - 1) }) := by
  unfold decodeReply
  cases headerOk r <;> cases lengthOk r <;> cases checksumOk r <;> simp

theorem headerOk_iff (r : List Byte) :
    headerOk r = true ↔ 2 ≤ r.length ∧ byteAt r 0 = 0xFF ∧ byteAt r 1 = 0xFF := by
  simp [headerOk, hdrByte, and_assoc]

theorem lengthOk_iff (r : List Byte) :
    lengthOk r = true ↔ 6 ≤ r.length ∧ (byteAt r 3).toNat + 4 = r.length := by
  rw [lengthOk, Bool.and_eq_true, decide_eq_true_eq, decide_eq_true_eq]

theorem checksumOk_iff (r : List Byte) :
    checksumOk r = true ↔ csum (slice r 2 (r.length - 1)) = byteAt r (r.length - 1) := by
  simp [checksumOk]

/-- A reply is accepted exactly when all three checks pass. -/
theorem decodeReply_eq_ok (r : List Byte) (rep : Reply) :
    decodeReply r = .ok rep ↔
      headerOk r = true ∧ lengthOk r = true ∧ checksumOk r = true ∧
      rep = { servoId := byteAt r 2, status := byteAt r 4, data := slice r 5 (r.length - 1) } := by
  rcases decodeReply_cases r with ⟨h, hd⟩ | ⟨h, h', hd⟩ | ⟨h, h', h'', hd⟩ | ⟨h, h', h'', hd⟩ <;>
    rw [hd]
  · simp [h]
  · simp [h']
  · simp [h'']
  · simp only [h, h', h'', true_and, Except.ok.injEq]
    exact eq_comm

/-- The reply's data is the bytes between the status and the checksum. -/
theorem decodeReply_data_length {r : List Byte} {rep : Reply} (h : decodeReply r = .ok rep) :
    6 ≤ r.length ∧ r.length ≤ 259 ∧ rep.data.length = r.length - 6 := by
  obtain ⟨-, hl, -, rfl⟩ := (decodeReply_eq_ok _ _).mp h
  obtain ⟨h6, h4⟩ := (lengthOk_iff r).mp hl
  have := (byteAt r 3).isLt
  refine ⟨h6, by omega, ?_⟩
  simp [slice]
  omega

/-- DEC of a range inside BUF whose bytes all hold a value. -/
theorem exec_reply_of_read {n : Nat} {s : State} {r : List Byte} (hn : n ≤ s.cfg.cap)
    (hr : memRead s.buf 0 n = some r) :
    exec (.reply n) s = .next (match decodeReply r with
      | .ok rep => acceptReply rep n s
      | .error k => raise k s) := by
  simp only [exec, execReply, if_neg (Nat.not_lt.mpr hn), hr]
  cases decodeReply r <;> rfl

/-- Everything DEC can do. -/
theorem exec_reply_cases (n : Nat) (s : State) :
    (s.cfg.cap < n ∧ exec (.reply n) s = .next (raise .lengthError s)) ∨
    (n ≤ s.cfg.cap ∧ memRead s.buf 0 n = none ∧ exec (.reply n) s = .fault .noValue) ∨
    (∃ r k, n ≤ s.cfg.cap ∧ memRead s.buf 0 n = some r ∧ decodeReply r = .error k ∧
      exec (.reply n) s = .next (raise k s)) ∨
    (∃ r rep, n ≤ s.cfg.cap ∧ memRead s.buf 0 n = some r ∧ decodeReply r = .ok rep ∧
      exec (.reply n) s = .next (acceptReply rep n s)) := by
  by_cases hn : s.cfg.cap < n
  · exact .inl ⟨hn, by simp [exec, execReply, hn]⟩
  · have hn' : n ≤ s.cfg.cap := by omega
    cases hr : memRead s.buf 0 n with
    | none => exact .inr (.inl ⟨hn', rfl, by simp [exec, execReply, hn, hr]⟩)
    | some r =>
      have he := exec_reply_of_read hn' hr
      cases hd : decodeReply r with
      | error k => exact .inr (.inr (.inl ⟨r, k, hn', rfl, hd, by rw [he, hd]⟩))
      | ok rep => exact .inr (.inr (.inr ⟨r, rep, hn', rfl, hd, by rw [he, hd]⟩))

/-- Everything a command that ends can do: raise an error, write a frame or accept a
reply. -/
theorem exec_cases {i : Instr} {s t : State} (h : exec i s = .next t) :
    (direction i = .sent ∧ i.wf = false ∧ t = raise .oversize s) ∨
    (direction i = .sent ∧ i.wf = true ∧ s.cfg.cap < (encode i).length ∧
      t = raise .bufferTooSmall s) ∨
    (direction i = .sent ∧ i.wf = true ∧ (encode i).length ≤ s.cfg.cap ∧
      ∃ id, servoId i = some id ∧ t = writeFrame id (encode i) s) ∨
    (∃ n, i = .reply n ∧ s.cfg.cap < n ∧ t = raise .lengthError s) ∨
    (∃ n r k, i = .reply n ∧ n ≤ s.cfg.cap ∧ memRead s.buf 0 n = some r ∧
      decodeReply r = .error k ∧ t = raise k s) ∨
    (∃ n r rep, i = .reply n ∧ n ≤ s.cfg.cap ∧ memRead s.buf 0 n = some r ∧
      decodeReply r = .ok rep ∧ t = acceptReply rep n s) := by
  cases hd : direction i with
  | sent =>
    obtain ⟨id, hid, ⟨h1, rfl⟩ | ⟨h1, h2, rfl⟩ | ⟨h1, h2, rfl⟩⟩ := exec_sent_cases hd h
    · exact .inl ⟨rfl, h1, rfl⟩
    · exact .inr (.inl ⟨rfl, h1, h2, rfl⟩)
    · exact .inr (.inr (.inl ⟨rfl, h1, h2, id, hid, rfl⟩))
  | received =>
    cases i with
    | reply n =>
      rcases exec_reply_cases n s with ⟨h1, he⟩ | ⟨-, -, he⟩ | ⟨r, k, h1, h2, h3, he⟩ |
          ⟨r, rep, h1, h2, h3, he⟩ <;>
        rw [he] at h <;> simp at h <;> subst h
      · exact .inr (.inr (.inr (.inl ⟨n, rfl, h1, rfl⟩)))
      · exact .inr (.inr (.inr (.inr (.inl ⟨n, r, k, rfl, h1, h2, h3, rfl⟩))))
      · exact .inr (.inr (.inr (.inr (.inr ⟨n, r, rep, rfl, h1, h2, h3, rfl⟩))))
    | _ => simp [direction] at hd

/-! ## The host's access -/

/-- A load that answers returns the range and changes nothing. -/
theorem hostLoad_eq_next {off k : Nat} {s t : State} {bs : List Byte} :
    hostLoad off k s = .next (t, bs) ↔
      off + k ≤ s.cfg.cap ∧ memRead s.buf off k = some bs ∧ t = s := by
  unfold hostLoad
  split
  · cases memRead s.buf off k <;> simp_all [eq_comm, and_comm]
  · simp_all

/-- A store that answers writes the bytes and ends the reply window's life. -/
theorem hostStore_eq_next {off : Nat} {v : List Byte} {s t : State} :
    hostStore off v s = .next t ↔
      off + v.length ≤ s.cfg.cap ∧
      t = { s with buf := memWrite s.buf off v, windowLive := false } := by
  unfold hostStore
  split <;> simp_all [eq_comm]

/-- The window of a live reply is a load of its data. -/
theorem readWindow_eq_next {s t : State} {bs : List Byte} :
    readWindow s = .next (t, bs) ↔
      ∃ id status doff dlen, s.res = .decOk id status doff dlen ∧ s.windowLive = true ∧
        hostLoad doff dlen s = .next (t, bs) := by
  unfold readWindow
  cases hr : s.res <;> simp
  cases hw : s.windowLive <;> simp

/-- Only `EncOk` has a length. -/
theorem encodedLength_eq_some {r : Res} {len : Nat} :
    encodedLength r = some len ↔ r = .encOk len := by
  cases r <;> simp [encodedLength]

/-- TX loads the frame RES names. -/
theorem loadFrame_eq_next {s t : State} {bs : List Byte} :
    loadFrame s = .next (t, bs) ↔
      ∃ len, s.res = .encOk len ∧ len ≤ s.cfg.cap ∧ memRead s.buf 0 len = some bs ∧
        t = { s with loaded := bs } := by
  unfold loadFrame
  constructor
  · intro h
    split at h
    · rename_i len hl
      obtain ⟨⟨s', bs'⟩, h1, h2⟩ := andThen_eq_next.mp h
      obtain ⟨hc, hr, rfl⟩ := hostLoad_eq_next.mp h1
      simp only [Host.Outcome.next.injEq, Prod.mk.injEq] at h2
      obtain ⟨rfl, rfl⟩ := h2
      exact ⟨len, encodedLength_eq_some.mp hl, by omega, hr, rfl⟩
    · simp at h
  · rintro ⟨len, hl, hc, hr, rfl⟩
    rw [encodedLength_eq_some.mpr hl]
    show andThen (hostLoad 0 len s) _ = _
    rw [hostLoad_eq_next.mpr ⟨by omega, hr, rfl⟩]
    rfl

end Sys2Proof.Machine
end

