-- ==== Sys2Proof/Laws/Checksum.lean ====
section
/-! SUPPORT. The checksum's sum as a library sum, and the parts of a closed frame. -/

namespace Sys2Proof.Machine

/-- The model's byte sum is the library's sum of the bytes' values. -/
theorem byteSum_eq_sum (s : List Byte) : byteSum s = (s.map BitVec.toNat).sum := by
  induction s with
  | nil => rfl
  | cons b s ih => simp [byteSum, ih]

/-- CSUM depends on the sum mod 256 alone. -/
theorem csum_congr {s t : List Byte} (h : byteSum s % 256 = byteSum t % 256) : csum s = csum t := by
  rw [csum, csum, h]

/-- The accumulator loop adds the byte sum to its accumulator. -/
theorem csumLoop_eq (s : List Byte) (acc : Byte) :
    csumLoop acc s = acc + BitVec.ofNat 8 (byteSum s) := by
  induction s generalizing acc with
  | nil => simp [csumLoop, byteSum]
  | cons b s ih =>
    rw [csumLoop, ih, byteSum]
    apply BitVec.eq_of_toNat_eq
    simp [BitVec.toNat_add, Nat.add_assoc]

/-- What a byte sequence `FF FF body c` holds between its header and its last byte, and last. -/
theorem slice_closed {body r : List Byte} {c : Byte} (h : r = [0xFF, 0xFF] ++ body ++ [c]) :
    slice r 2 (r.length - 1) = body ∧ byteAt r (r.length - 1) = c := by
  subst h
  constructor
  · simp [slice]
  · simp [byteAt, List.getD]

theorem write_wf_iff {id addr : Byte} {pay : List Byte} :
    (Instr.write id addr pay).wf = true ↔ pay.length ≤ 252 := by
  simp [Instr.wf, Instr.payloadFits, Instr.countMinimal, Instr.countMaximal]

theorem reply_wf_iff {n : Nat} : (Instr.reply n).wf = true ↔ 6 ≤ n ∧ n ≤ 259 := by
  simp [Instr.wf, Instr.payloadFits, Instr.countMinimal, Instr.countMaximal]

end Sys2Proof.Machine
end

