-- ==== Sys2Proof/Laws/PerInstr.lean ====
section
/-! SUPPORT. The family of statements made per instruction: how many bytes its frame has. -/

namespace Sys2Proof.Laws.FrameLength

open Sys2Proof.Machine

/-- The frame lengths of the code map: 6, 8, 7 + L, and a DEC's own count (spec R75, R73). -/
def Statement (i : Instr) : Prop :=
  i.wf = true → (encode i).length =
    match i with
    | .ping _ => 6
    | .read _ _ _ => 8
    | .write _ _ pay => 7 + pay.length
    | .reply n => n

theorem ping (id : Byte) : Statement (.ping id) := fun _ => encode_length_ping id

theorem read (id addr rlen : Byte) : Statement (.read id addr rlen) :=
  fun _ => encode_length_read id addr rlen

theorem write (id addr : Byte) (pay : List Byte) : Statement (.write id addr pay) :=
  fun _ => encode_length_write id addr pay

theorem reply (n : Nat) : Statement (.reply n) := by
  intro h
  simp only [Instr.wf, Instr.payloadFits, Instr.countMinimal, Instr.countMaximal, Bool.and_eq_true,
    decide_eq_true_eq] at h
  rw [encode_length_reply]
  show 6 + (n - 6) = n
  omega

end Sys2Proof.Laws.FrameLength
end

