-- ==== Sys2Proof/Laws/Step.lean ====
section
/-! SUPPORT. What a step can do, said once: every host step but reset is a path of moves, each a command of
the block, a host store, bookkeeping of the host, or a change of its queue and snapshots. An invariant
of the machine is proved for the moves and for reset. -/

namespace Sys2Proof.Machine

/-- Bookkeeping of the host: block, parameters, snapshots and queue stay, the wire only grows. -/
structure Noted (s t : State) : Prop where
  cfg : t.cfg = s.cfg
  buf : t.buf = s.buf
  res : t.res = s.res
  windowLive : t.windowLive = s.windowLive
  servos : t.servos = s.servos
  queue : t.queue = s.queue
  wireOut : ∃ bs, t.wireOut = s.wireOut ++ bs

/-- A change of the queue or the snapshots: the queue stays within bounds it was in, the snapshots keep
their ids. -/
structure Planned (s t : State) : Prop where
  cfg : t.cfg = s.cfg
  buf : t.buf = s.buf
  res : t.res = s.res
  windowLive : t.windowLive = s.windowLive
  wireOut : t.wireOut = s.wireOut
  servoIds : t.servos.map ServoInfo.id = s.servos.map ServoInfo.id
  queueLength : t.queue.length ≤ s.queue.length ∨ t.queue.length ≤ s.cfg.qcap
  queueIds : ∀ c ∈ t.queue, c ∈ s.queue ∨ c.id.toNat ≤ 253

/-- One move of the machine. -/
inductive Move : State → State → Prop where
  | command (i : Instr) {s t : State} (h : exec i s = .next t) : Move s t
  | stored (off : Nat) (v : List Byte) {s t : State} (h : hostStore off v s = .next t) : Move s t
  | noted {s t : State} (h : Noted s t) : Move s t
  | planned {s t : State} (h : Planned s t) : Move s t

/-- A sequence of moves. -/
abbrev Path := Relation.ReflTransGen Move

theorem Path.of_noted {s t : State} (h : Noted s t) : Path s t := .single (.noted h)

/-- An operation all of whose answers are reached by moves. -/
def Moves {α : Type} (x : Run α) (s : State) : Prop := ∀ t a, x = .next (t, a) → Path s t

/-- A host step all of whose answers are reached by moves. -/
def StepMoves (x : Host.Outcome State Fault Refusal) (s : State) : Prop := ∀ t, x = .next t → Path s t

/-! ## Sequencing -/

theorem moves_andThen {α β : Type} {x : Run α} {f : State × α → Run β} {s : State} (hx : Moves x s)
    (hf : ∀ s' a, Moves (f (s', a)) s') : Moves (andThen x f) s := by
  intro t b h
  obtain ⟨⟨s', a⟩, h1, h2⟩ := andThen_eq_next.mp h
  exact (hx s' a h1).trans (hf s' a t b h2)

theorem moves_andThen_state {β : Type} {x : Host.Outcome State Fault Refusal} {f : State → Run β}
    {s : State} (hx : StepMoves x s) (hf : ∀ s', Moves (f s') s') : Moves (andThen x f) s := by
  intro t b h
  obtain ⟨s', h1, h2⟩ := andThen_eq_next.mp h
  exact (hx s' h1).trans (hf s' t b h2)

theorem stepMoves_andThen {α : Type} {x : Run α} {f : State × α → Host.Outcome State Fault Refusal}
    {s : State} (hx : Moves x s) (hf : ∀ s' a, StepMoves (f (s', a)) s') :
    StepMoves (andThen x f) s := by
  intro t h
  obtain ⟨⟨s', a⟩, h1, h2⟩ := andThen_eq_next.mp h
  exact (hx s' a h1).trans (hf s' a t h2)

theorem moves_thenOk {α β : Type} {x : Run (Except HostError α)}
    {f : α → State → Run (Except HostError β)} {s : State} (hx : Moves x s)
    (hf : ∀ a s', Moves (f a s') s') : Moves (thenOk x f) s :=
  moves_andThen hx fun s' r => by
    cases r with
    | ok a => exact hf a s'
    | error e => intro t b h; simp at h; rw [h.1]

theorem stepMoves_conclude {α : Type} {x : Run (Except HostError α)} {f : α → HostResult} {s : State}
    (hx : Moves x s) : StepMoves (conclude x f) s :=
  stepMoves_andThen hx fun s' r => by
    intro t h
    refine Path.of_noted ?_
    cases r <;> simp at h <;> subst h <;> exact ⟨rfl, rfl, rfl, rfl, rfl, rfl, [], by simp⟩

/-! ## The block's operations -/

theorem stepMoves_exec (i : Instr) (s : State) : StepMoves (exec i s) s :=
  fun _ h => .single (.command i h)

theorem stepMoves_hostStore (off : Nat) (v : List Byte) (s : State) : StepMoves (hostStore off v s) s :=
  fun _ h => .single (.stored off v h)

theorem moves_hostLoad (off k : Nat) (s : State) : Moves (hostLoad off k s) s := by
  intro t bs h
  rw [(hostLoad_eq_next.mp h).2.2]

theorem moves_readWindow (s : State) : Moves (readWindow s) s := by
  intro t bs h
  obtain ⟨_, _, _, _, _, _, hl⟩ := readWindow_eq_next.mp h
  exact moves_hostLoad _ _ _ _ _ hl

theorem moves_loadFrame (s : State) : Moves (loadFrame s) s := by
  intro t bs h
  obtain ⟨_, -, -, -, rfl⟩ := loadFrame_eq_next.mp h
  exact Path.of_noted ⟨rfl, rfl, rfl, rfl, rfl, rfl, [], by simp⟩

theorem stepMoves_transmit (s : State) : StepMoves (transmit s) s :=
  stepMoves_andThen (moves_loadFrame s) fun s' bs => by
    intro t h
    simp at h
    subst h
    exact Path.of_noted ⟨rfl, rfl, rfl, rfl, rfl, rfl, bs, rfl⟩

theorem stepMoves_keepLoaded {x : Run (List Byte)} {s : State} (hx : Moves x s) :
    StepMoves (keepLoaded x) s :=
  stepMoves_andThen hx fun s' bs => by
    intro t h
    simp at h
    subst h
    exact Path.of_noted ⟨rfl, rfl, rfl, rfl, rfl, rfl, [], by simp⟩

/-! ## The dispatcher -/

theorem noted_nextTransfer (s : State) : Noted s (nextTransfer s).1 := by
  unfold nextTransfer
  split <;> exact ⟨rfl, rfl, rfl, rfl, rfl, rfl, [], by simp⟩

theorem noted_channelWrite (x : WriteAnswer) (bs : List Byte) (s : State) :
    Noted s (channelWrite x bs s).1 := by
  cases x <;> exact ⟨rfl, rfl, rfl, rfl, rfl, rfl, _, rfl⟩

theorem moves_receiveReply (v : List Byte) (s : State) : Moves (receiveReply v s) s :=
  moves_andThen_state (stepMoves_hostStore 0 v s) fun s1 =>
  moves_andThen_state (stepMoves_exec _ s1) fun s2 => by
    split
    · refine moves_andThen (moves_readWindow s2) fun s3 data => ?_
      intro t b h
      simp at h
      rw [h.1]
    · intro t b h
      simp at h
      rw [h.1]
    · intro t b h
      simp at h

theorem moves_channelRead (x : ReadAnswer) (s : State) : Moves (channelRead x s) s := by
  cases x with
  | fails v =>
    refine moves_andThen_state (stepMoves_hostStore 0 _ s) fun s1 => ?_
    intro t b h
    simp at h
    rw [h.1]
  | delivers v => exact moves_receiveReply _ s

theorem moves_exchange (s : State) : Moves (exchange s) s :=
  moves_andThen (moves_loadFrame s) fun s1 bs => by
    intro t b h
    have h1 := Path.of_noted (noted_nextTransfer s1)
    have h2 := Path.of_noted
      (noted_channelWrite (nextTransfer s1).2.write bs (nextTransfer s1).1)
    dsimp only at h
    split at h
    · rename_i s3 e hw
      simp only [Host.Outcome.next.injEq, Prod.mk.injEq] at h
      rw [hw] at h2
      rw [← h.1]
      exact h1.trans h2
    · rename_i s3 hw
      rw [hw] at h2
      exact (h1.trans h2).trans (moves_channelRead _ _ _ _ h)

theorem moves_send (i : Instr) (s : State) : Moves (send i s) s := by
  unfold send
  split
  · intro t b h; simp at h
  · split
    · intro t b h; simp at h
    · refine moves_andThen_state (stepMoves_exec i s) fun s1 => ?_
      split
      · intro t b h
        simp at h
        rw [h.1]
      · exact moves_exchange s1

/-! ## The register access layer -/

theorem moves_readData (id register count : Byte) (s : State) :
    Moves (readData id register count s) s :=
  moves_thenOk (moves_send _ s) fun rep s' => by
    split <;> (intro t b h; simp at h; rw [h.1])

theorem moves_readU8 (id register : Byte) (s : State) : Moves (readU8 id register s) s :=
  moves_thenOk (moves_readData _ _ _ s) fun data s' => by
    split <;> intro t b h <;> simp at h
    rw [h.1]

theorem moves_readU16 (id register : Byte) (s : State) : Moves (readU16 id register s) s :=
  moves_thenOk (moves_readData _ _ _ s) fun data s' => by
    split <;> intro t b h <;> simp at h
    rw [h.1]

theorem moves_readField (id : Byte) (f : Field) (s : State) : Moves (readField id f s) s := by
  unfold readField
  split
  · exact moves_readU16 _ _ s
  · refine moves_thenOk (moves_readU8 _ _ s) fun b s' => ?_
    intro t b h
    simp at h
    rw [h.1]

theorem moves_readTorque (id : Byte) (s : State) : Moves (readTorque id s) s := moves_readU8 id _ s

theorem moves_writePosition (id : Byte) (p : Half) (x : MoveTail) (s : State) :
    Moves (writePosition id p x s) s := moves_send _ s

theorem moves_writeTorque (id v : Byte) (s : State) : Moves (writeTorque id v s) s := moves_send _ s

/-! ## Servo state and queue -/

@[simp] theorem setField_id (info : ServoInfo) (f : Field) (v : Half) : (setField info f v).id = info.id := by
  cases f <;> rfl

@[simp] theorem setField_goal (info : ServoInfo) (f : Field) (v : Half) :
    (setField info f v).goal = info.goal := by
  cases f <;> rfl

/-- An overwritten field reads as the value, a flag as whether it is not 0. -/
theorem getField_setField_self (info : ServoInfo) (f : Field) (v : Half) :
    getField (setField info f v) f =
      if f = .moving ∨ f = .error then (if v = 0 then 0 else 1) else v := by
  cases f <;> simp [getField, setField, flagValue]

/-- Overwriting a field leaves the others. -/
theorem getField_setField_of_ne (info : ServoInfo) {f g : Field} (v : Half) (h : g ≠ f) :
    getField (setField info f v) g = getField info g := by
  cases f <;> cases g <;> first | rfl | exact absurd rfl h

theorem noted_fillField (f : Field) (prev info : ServoInfo) (r : Except HostError Half) (s : State) :
    Noted s (fillField f prev info r s).1 := by
  cases r <;> exact ⟨rfl, rfl, rfl, rfl, rfl, rfl, [], by simp [fillField, fallbackValue]⟩

@[simp] theorem fillField_id (f : Field) (prev info : ServoInfo) (r : Except HostError Half) (s : State) :
    (fillField f prev info r s).2.id = info.id := by
  cases r <;> simp [fillField, fallbackValue]

theorem refreshFields_spec (fs : List Field) (prev info : ServoInfo) (s t : State) (info' : ServoInfo)
    (h : refreshFields fs prev info s = .next (t, info')) : Path s t ∧ info'.id = info.id := by
  induction fs generalizing info s with
  | nil => simp [refreshFields] at h; rw [h.1, h.2]; exact ⟨.refl, rfl⟩
  | cons f fs ih =>
    rw [refreshFields] at h
    obtain ⟨⟨s1, r⟩, h1, h2⟩ := andThen_eq_next.mp h
    obtain ⟨hp, hi⟩ := ih (fillField f prev info r s1).2 (fillField f prev info r s1).1 h2
    have hn := Path.of_noted (noted_fillField f prev info r s1)
    exact ⟨((moves_readField _ _ _ _ _ h1).trans hn).trans hp, hi.trans (fillField_id ..)⟩

theorem refreshServo_spec (prev : ServoInfo) (s t : State) (info : ServoInfo)
    (h : refreshServo prev s = .next (t, info)) : Path s t ∧ info.id = prev.id := by
  obtain ⟨⟨s1, r⟩, h1, h2⟩ := andThen_eq_next.mp h
  have hp := moves_readField _ _ _ _ _ h1
  cases r with
  | ok v =>
    obtain ⟨hp', hi⟩ := refreshFields_spec _ _ _ _ _ _ h2
    exact ⟨hp.trans hp', by rw [hi, setField_id]⟩
  | error e =>
    dsimp only at h2
    split at h2
    · simp at h2
      rw [← h2.1, h2.2]
      exact ⟨hp, rfl⟩
    · obtain ⟨hp', hi⟩ := refreshFields_spec laterFields prev
        (fillField .position prev prev (.error e) s1).2 (fillField .position prev prev (.error e) s1).1
        t info h2
      have hn := Path.of_noted (noted_fillField .position prev prev (.error e) s1)
      exact ⟨(hp.trans hn).trans hp', hi.trans (fillField_id ..)⟩

theorem refreshAll_spec (l : List ServoInfo) (s t : State) (l' : List ServoInfo)
    (h : refreshAll l s = .next (t, l')) : Path s t ∧ l'.map ServoInfo.id = l.map ServoInfo.id := by
  induction l generalizing s t l' with
  | nil => simp [refreshAll] at h; rw [h.1, h.2]; exact ⟨.refl, rfl⟩
  | cons prev rest ih =>
    rw [refreshAll] at h
    obtain ⟨⟨s1, info⟩, h1, h2⟩ := andThen_eq_next.mp h
    obtain ⟨⟨s2, infos⟩, h3, h4⟩ := andThen_eq_next.mp h2
    obtain ⟨hp, hi⟩ := refreshServo_spec _ _ _ _ h1
    obtain ⟨hp', hi'⟩ := ih _ _ _ h3
    simp at h4
    obtain ⟨rfl, rfl⟩ := h4
    exact ⟨hp.trans hp', by simp [hi, hi']⟩

/-! ## What every command and every move keeps -/

/-- A command changes nothing of the host. -/
theorem exec_sameHost {i : Instr} {s t : State} (h : exec i s = .next t) : SameHost s t := by
  cases hd : direction i with
  | sent =>
    obtain ⟨id, -, ⟨-, rfl⟩ | ⟨-, -, rfl⟩ | ⟨-, -, rfl⟩⟩ := exec_sent_cases hd h <;> simp [SameHost]
  | received =>
    cases i with
    | reply n =>
      rcases exec_reply_cases n s with ⟨-, he⟩ | ⟨-, -, he⟩ | ⟨_, _, -, -, -, he⟩ | ⟨_, _, -, -, -, he⟩ <;>
        rw [he] at h <;> simp at h <;> subst h <;> simp [SameHost]
    | _ => simp [direction] at hd

/-- No move changes a parameter. -/
theorem Move.cfg_eq {s t : State} (h : Move s t) : t.cfg = s.cfg := by
  cases h with
  | command i h => exact (exec_sameHost h).1
  | stored off v h => rw [(hostStore_eq_next.mp h).2]
  | noted h => exact h.cfg
  | planned h => exact h.cfg

/-- No move changes which actuators have a snapshot. -/
theorem Move.servoIds_eq {s t : State} (h : Move s t) :
    t.servos.map ServoInfo.id = s.servos.map ServoInfo.id := by
  cases h with
  | command i h => rw [(exec_sameHost h).2.2.2.2.2.1]
  | stored off v h => rw [(hostStore_eq_next.mp h).2]
  | noted h => rw [h.servos]
  | planned h => exact h.servoIds

/-- What every move keeps, every path keeps. -/
theorem Path.keeps {P : State → State → Prop} (refl : ∀ s, P s s)
    (trans : ∀ {s t u}, P s t → P t u → P s u) (move : ∀ {s t}, Move s t → P s t) {s t : State}
    (h : Path s t) : P s t := by
  induction h with
  | refl => exact refl _
  | tail _ hm ih => exact trans ih (move hm)

theorem Path.servoIds_eq {s t : State} (h : Path s t) :
    t.servos.map ServoInfo.id = s.servos.map ServoInfo.id :=
  h.keeps (P := fun s t => t.servos.map ServoInfo.id = s.servos.map ServoInfo.id) (fun _ => rfl)
    (fun h1 h2 => h2.trans h1) Move.servoIds_eq

/-! ## Host steps -/

theorem stepMoves_enqueue (c : MoveCommand) (s : State) : StepMoves (enqueue c s) s := by
  intro t h
  unfold enqueue at h
  split at h
  · simp at h
  · rename_i hid
    split at h
    · rename_i hq
      simp at h
      subst h
      refine .single (.planned ⟨rfl, rfl, rfl, rfl, rfl, ?_, ?_, ?_⟩)
      · show (trackGoal c s).map ServoInfo.id = _
        unfold trackGoal
        split
        · rw [List.map_map]
          refine List.map_congr_left fun info _ => ?_
          simp only [Function.comp]
          split <;> rfl
        · rfl
      · exact .inr hq
      · intro d hd
        rcases List.mem_cons.mp hd with rfl | hd
        · exact .inr (by omega)
        · exact .inl hd
    · simp at h
      subst h
      exact Path.of_noted ⟨rfl, rfl, rfl, rfl, rfl, rfl, [], by simp⟩

theorem stepMoves_enqueueRelative (id : Byte) (delta : Int) (x : MoveTail) (s : State) :
    StepMoves (enqueueRelative id delta x s) s := by
  unfold enqueueRelative
  split
  · exact stepMoves_enqueue _ s
  · intro t h; simp at h

theorem stepMoves_processQueue (s : State) : StepMoves (processQueue s) s := by
  intro t h
  unfold processQueue at h
  split at h
  · simp at h
    subst h
    exact Path.of_noted ⟨rfl, rfl, rfl, rfl, rfl, rfl, [], by simp⟩
  · rename_i c rest hq
    have hp : Path s { s with queue := rest } :=
      .single (.planned ⟨rfl, rfl, rfl, rfl, rfl, rfl, .inl (by simp [hq]),
        fun d hd => .inl (by rw [hq]; exact List.mem_cons_of_mem _ hd)⟩)
    exact hp.trans (stepMoves_conclude (moves_writePosition _ _ _ _) t h)

theorem stepMoves_updateTelemetry (s : State) : StepMoves (updateTelemetry s) s := by
  intro t h
  obtain ⟨⟨s', infos⟩, h1, h2⟩ := andThen_eq_next.mp h
  obtain ⟨hp, hi⟩ := refreshAll_spec _ _ _ _ h1
  simp at h2
  subst h2
  refine hp.trans (.single (.planned ⟨rfl, rfl, rfl, rfl, rfl, ?_, .inl le_rfl, fun c hc => .inl hc⟩))
  rw [hi, hp.servoIds_eq]

theorem stepMoves_runCode (frame : List Byte) (s : State) : StepMoves (runCode frame s) s := by
  unfold runCode
  split
  · exact stepMoves_exec _ s
  · intro t h; simp at h
  · intro t h; simp at h

/-- What a host step can do. -/
theorem runHostStep_cases {h : HostStep} {s t : State} (he : runHostStep h s = .next t) :
    (h = .reset ∧ t = resetBlock s) ∨ Path s t := by
  cases h with
  | reset => simp [runHostStep] at he; exact .inl ⟨rfl, he.symm⟩
  | issue i => exact .inr (stepMoves_exec i s t he)
  | code frame => exact .inr (stepMoves_runCode frame s t he)
  | tx => exact .inr (stepMoves_transmit s t he)
  | rx v => exact .inr (stepMoves_hostStore 0 v s t he)
  | load off k => exact .inr (stepMoves_keepLoaded (moves_hostLoad off k s) t he)
  | store off v => exact .inr (stepMoves_hostStore off v s t he)
  | window => exact .inr (stepMoves_keepLoaded (moves_readWindow s) t he)
  | readRes f =>
    simp only [runHostStep, readResult] at he
    split at he <;> simp at he
    subst he
    exact .inr (Path.of_noted ⟨rfl, rfl, rfl, rfl, rfl, rfl, [], by simp⟩)
  | readRecord =>
    simp only [runHostStep, Host.Outcome.next.injEq] at he
    subst he
    exact .inr (Path.of_noted ⟨rfl, rfl, rfl, rfl, rfl, rfl, [], by simp⟩)
  | send i => exact .inr (stepMoves_conclude (moves_send i s) t he)
  | readU8 id r => exact .inr (stepMoves_conclude (moves_readU8 id r s) t he)
  | readU16 id r => exact .inr (stepMoves_conclude (moves_readU16 id r s) t he)
  | writePosition id p x => exact .inr (stepMoves_conclude (moves_writePosition id p x s) t he)
  | enableTorque id => exact .inr (stepMoves_conclude (moves_writeTorque id _ s) t he)
  | disableTorque id => exact .inr (stepMoves_conclude (moves_writeTorque id _ s) t he)
  | isMoving id => exact .inr (stepMoves_conclude (moves_readField id _ s) t he)
  | hasError id => exact .inr (stepMoves_conclude (moves_readField id _ s) t he)
  | readValue id f => exact .inr (stepMoves_conclude (moves_readField id f s) t he)
  | readTorque id => exact .inr (stepMoves_conclude (moves_readTorque id s) t he)
  | snapshot =>
    simp only [runHostStep, Host.Outcome.next.injEq] at he
    subst he
    exact .inr (Path.of_noted ⟨rfl, rfl, rfl, rfl, rfl, rfl, [], by simp⟩)
  | moveTo id g x => exact .inr (stepMoves_enqueue _ s t he)
  | moveBy id d x => exact .inr (stepMoves_enqueueRelative id d x s t he)
  | process => exact .inr (stepMoves_processQueue s t he)
  | update => exact .inr (stepMoves_updateTelemetry s t he)
  | cached id f =>
    simp only [runHostStep, readCached] at he
    split at he <;> simp at he
    subst he
    exact .inr (Path.of_noted ⟨rfl, rfl, rfl, rfl, rfl, rfl, [], by simp⟩)

/-- What a step can do: the reset of the block, or a path of moves. -/
theorem step_cases {s t : State} (h : step s = .next t) :
    (∃ rest, s.program = .reset :: rest ∧ t = resetBlock { s with program := rest }) ∨ Path s t := by
  unfold step at h
  split at h
  · simp at h
    subst h
    exact .inr .refl
  · rename_i hs rest hp
    rcases runHostStep_cases h with ⟨rfl, rfl⟩ | hpath
    · exact .inl ⟨rest, hp, rfl⟩
    · have hn : Path s { s with program := rest } :=
        Path.of_noted ⟨rfl, rfl, rfl, rfl, rfl, rfl, [], by simp⟩
      exact .inr (hn.trans hpath)

end Sys2Proof.Machine
end

