-- ==== Sys2Proof/Laws/Send.lean ====
section
/-! SUPPORT. What `send` can do, said once: its parts as equations, and the queue left alone. -/

namespace Sys2Proof.Machine

/-- TX right after a successful ENC loads the frame ENC wrote. -/
theorem loadFrame_writeFrame (id : Byte) (f : List Byte) {s : State} (h : f.length ≤ s.cfg.cap) :
    loadFrame (writeFrame id f s) = .next ({ writeFrame id f s with loaded := f }, f) :=
  loadFrame_eq_next.mpr ⟨f.length, rfl, h, memRead_memWrite_self _ _ _, rfl⟩

/-- `send` of an instruction to a single actuator whose frame exists and fits. -/
theorem send_fits {i : Instr} {id : Byte} {s : State} (hid : servoId i = some id)
    (h253 : id.toNat ≤ 253) (hw : i.wf = true) (hc : (encode i).length ≤ s.cfg.cap) :
    send i s = exchange (writeFrame id (encode i) s) := by
  unfold send
  simp only [hid]
  rw [if_neg (by omega), exec_sent_fits hid hw hc]
  rfl

/-- The exchange after a successful ENC, with the channel's next answers `x`. -/
theorem exchange_writeFrame {id : Byte} {f : List Byte} {s : State} {x : Transfer}
    {rest : List Transfer} (hc : f.length ≤ s.cfg.cap) (hx : s.channel = x :: rest) :
    exchange (writeFrame id f s) =
      match channelWrite x.write f { writeFrame id f s with loaded := f, channel := rest } with
      | (s3, some e) => .next (s3, .error e)
      | (s3, none) => channelRead x.read s3 := by
  unfold exchange
  rw [loadFrame_writeFrame id f hc]
  have h : nextTransfer { writeFrame id f s with loaded := f } =
      ({ writeFrame id f s with loaded := f, channel := rest }, x) := by
    simp [nextTransfer, hx]
  exact congrArg (fun p : State × Transfer =>
    match channelWrite p.2.write f p.1 with
    | (s3, some e) => (.next (s3, .error e) : Run (Except HostError Reply))
    | (s3, none) => channelRead p.2.read s3) h

/-- A delivered reply that fits in BUF is stored and is what `Decode` says of it. -/
theorem receiveReply_spec {v : List Byte} {s : State} (h : v.length ≤ s.cfg.cap) :
    ∃ t, receiveReply v s = .next (t,
        match decodeReply v with
        | .ok rep => .ok rep
        | .error e => .error (.codec e)) ∧
      SameHost s t ∧ t.buf = memWrite s.buf 0 v := by
  have hm : memRead (memWrite s.buf 0 v) 0 v.length = some v := memRead_memWrite_self _ _ _
  unfold receiveReply
  rw [hostStore_eq_next.mpr ⟨by omega, rfl⟩, andThen_next, exec_reply_of_read (r := v) (by exact h) hm]
  cases hd : decodeReply v with
  | error k => exact ⟨_, rfl, by simp [SameHost], rfl⟩
  | ok rep =>
    obtain ⟨h6, -, -⟩ := decodeReply_data_length hd
    obtain ⟨-, -, -, hrep⟩ := (decodeReply_eq_ok _ _).mp hd
    have hs := memRead_slice hm (a := 5) (b := v.length - 1) (by omega) (by omega)
    have hw : ∀ s2, s2 = acceptReply rep v.length
        { s with buf := memWrite s.buf 0 v, windowLive := false } →
        readWindow s2 = .next (s2, rep.data) := by
      rintro s2 rfl
      refine readWindow_eq_next.mpr ⟨_, _, _, _, rfl, rfl, hostLoad_eq_next.mpr ⟨?_, ?_, rfl⟩⟩
      · simp only [acceptReply_cfg, minReply]
        omega
      · simp only [acceptReply_buf, minReply]
        rw [show v.length - 6 = v.length - 1 - 5 by omega, hs, hrep]
    refine ⟨acceptReply rep v.length { s with buf := memWrite s.buf 0 v, windowLive := false },
      ?_, ?_, rfl⟩
    · show andThen (readWindow _) _ = _
      rw [hw _ rfl, andThen_next]
    · simp [SameHost]

/-- `send` leaves the queue of moves alone. -/
theorem send_queue {i : Instr} {s t : State} {r : Except HostError Reply}
    (h : send i s = .next (t, r)) : t.queue = s.queue := by
  unfold send at h
  split at h
  · simp at h
  · split at h
    · simp at h
    · obtain ⟨s1, h1, h2⟩ := andThen_eq_next.mp h
      have q1 : s1.queue = s.queue := (exec_sameHost h1).2.2.2.2.2.2.1
      split at h2
      · simp at h2; rw [← h2.1, q1]
      · unfold exchange at h2
        obtain ⟨⟨s2, bs⟩, h3, h4⟩ := andThen_eq_next.mp h2
        obtain ⟨_, -, -, -, rfl⟩ := loadFrame_eq_next.mp h3
        have qn := (noted_nextTransfer { s1 with loaded := bs }).queue
        have qw := (noted_channelWrite (nextTransfer { s1 with loaded := bs }).2.write bs
          (nextTransfer { s1 with loaded := bs }).1).queue
        dsimp only at h4
        split at h4
        · rename_i hw
          rw [hw] at qw
          simp at h4
          rw [← h4.1, qw, qn, q1]
        · rename_i s3 hw
          rw [hw] at qw
          have q3 : s3.queue = s.queue := by rw [qw, qn, q1]
          cases hx : (nextTransfer { s1 with loaded := bs }).2.read with
          | fails v =>
            rw [hx] at h4
            obtain ⟨s4, h5, h6⟩ := andThen_eq_next.mp h4
            rw [(hostStore_eq_next.mp h5).2] at h6
            simp at h6
            rw [← h6.1]
            exact q3
          | delivers v =>
            rw [hx] at h4
            obtain ⟨t', h7, h8, -⟩ := receiveReply_spec (v := v.take s3.cfg.cap) (s := s3) (by simp)
            simp only [channelRead] at h4
            rw [h7] at h4
            simp at h4
            rw [← h4.1, h8.2.2.2.2.2.2.1, q3]

end Sys2Proof.Machine
end

