-- ==== Sys2Proof/Tests/Slice0.lean ====
section
/-! SUPPORT. Tests on small states. Expected bytes and results are the spec's own, from
`95_test_vectors.md` (the vector's name stands in the comment) or written out from the rule named. Then,
for each statement with hypotheses, a state and operands that meet all of them. -/

namespace Sys2Proof.Tests

open Sys2Proof Sys2Proof.Machine

/-! ## Helpers -/

/-- The machine after reset with a buffer of `cap` bytes. -/
def room (cap : Nat) : State := State.resetWith { Config.standard with cap := cap }

/-- The same with these bytes at offset 0. -/
def holding (cap : Nat) (bs : List Byte) : State := { room cap with buf := memWrite [] 0 bs }

/-- The same with this host step next. -/
def hosting (h : HostStep) (s : State) : State := { s with program := [h] }

/-- The same with this channel. -/
def wired (x : List Transfer) (s : State) : State := { s with channel := x }

def nextOf (x : Host.Outcome State Fault Refusal) : Option State :=
  match x with
  | .next t => some t
  | .fault _ => none
  | .refused _ => none

/-- RES and the first `k` bytes of BUF after a step. -/
def after (k : Nat) (x : Host.Outcome State Fault Refusal) : Option (Res × Option (List Byte)) :=
  (nextOf x).map fun t => (t.res, memRead t.buf 0 k)

/-- RES after a DEC of all these bytes. -/
def decOf (bs : List Byte) : Option Res :=
  (nextOf (exec (.reply bs.length) (holding 16 bs))).map State.res

/-! ## Well-formedness: each check refuses a term -/

theorem test_wf_accepts : (Instr.ping 255).wf = true ∧ (Instr.read 1 0x38 2).wf = true ∧
    (Instr.write 1 0 (List.replicate 252 0)).wf = true ∧ (Instr.reply 6).wf = true ∧
    (Instr.reply 259).wf = true := by decide +kernel

theorem test_wf_refuses_long_payload :
    (Instr.write 1 0 (List.replicate 253 0)).payloadFits = false ∧
    (Instr.write 1 0 (List.replicate 253 0)).wf = false := by decide +kernel

theorem test_wf_refuses_short_count :
    (Instr.reply 5).countMinimal = false ∧ (Instr.reply 5).wf = false := by decide

theorem test_wf_refuses_long_count :
    (Instr.reply 260).countMaximal = false ∧ (Instr.reply 260).wf = false := by decide

/-! ## Decoding: words written out from R68 to R70 and R66 -/

/-- P2. -/
theorem test_decode_ping :
    decode .sent [0xFF, 0xFF, 0x01, 0x02, 0x01, 0xFB] = .ok (.ping 1, []) := by decide

/-- Rd7: an id, an address and a reply length that all differ. -/
theorem test_decode_read :
    decode .sent [0xFF, 0xFF, 0x07, 0x04, 0x02, 0x3A, 0x02, 0xB6] = .ok (.read 7 0x3A 2, []) := by
  decide

/-- W4, with two bytes after the frame. -/
theorem test_decode_write :
    decode .sent [0xFF, 0xFF, 0x01, 0x07, 0x03, 0x2A, 0x00, 0x08, 0xF4, 0x01, 0xCD, 0xAA, 0xBB] =
      .ok (.write 1 0x2A [0x00, 0x08, 0xF4, 0x01], [0xAA, 0xBB]) := by decide

/-- W1: the empty payload. -/
theorem test_decode_write_empty :
    decode .sent [0xFF, 0xFF, 0x01, 0x03, 0x03, 0x2A, 0xCE] = .ok (.write 1 0x2A [], []) := by decide

/-- DV2. -/
theorem test_decode_reply :
    decode .received [0xFF, 0xFF, 0x01, 0x04, 0x00, 0x00, 0x08, 0xF2] = .ok (.reply 8, []) := by
  decide

/-- Each reason the decoder refuses bytes for (R62, R77, R71, R73). -/
theorem test_decode_refuses :
    decode .sent [0xFF, 0xFE, 0x01, 0x02, 0x01, 0xFB] = .error .badHeader ∧
    decode .sent [0xFF, 0xFF, 0x01, 0x02, 0x05, 0xF7] = .error .unknownCode ∧
    decode .sent [0xFF, 0xFF, 0x01, 0x03, 0x01, 0xFA] = .error .badLength ∧
    decode .sent [0xFF, 0xFF, 0x01, 0x04, 0x02, 0x38, 0x02] = .error .truncated := by decide

/-- The rows of the opcode table, in either order of the bytes of a word (log entry 5). -/
theorem test_table_words :
    decodeTableWord 40 0x010200FFFF = some (.ping 0) ∧
    decodeTableWord 40 0xFFFF000201 = some (.ping 0) ∧
    decodeTableWord 40 0x020407FFFF = some (.read 7 0 0) ∧
    decodeTableWord 40 0xFFFF070503 = some (.write 7 0 [0, 0]) ∧
    decodeTableWord 40 0x000800FFFF = some (.reply 12) := by decide

/-! ## The checksum -/

/-- K1, K3, K4, K7, K10. -/
theorem test_checksum :
    csum [] = 0xFF ∧ csum [0xFF] = 0x00 ∧ csum [0x80, 0x80] = 0xFF ∧ csum [1, 2, 3] = 0xF9 ∧
    csum [0x01, 0x09, 0x03, 0x2A, 0x00, 0x08, 0x00, 0x00, 0xE8, 0x03] = 0xD5 := by decide

/-- K6, in the byte-serial form. -/
theorem test_checksum_serial : csumSerial [0xFF, 0xFF, 0xFF] = 0x02 := by decide

/-! ## ENC -/

/-- P7 with an exact fit: id 255 is encoded, not rejected. -/
theorem test_ping : after 6 (exec (.ping 255) (room 6)) =
    some (.encOk 6, some [0xFF, 0xFF, 0xFF, 0x02, 0x01, 0xFD]) := by decide

/-- P8: nothing is written. -/
theorem test_ping_no_room : after 1 (exec (.ping 1) (room 5)) =
    some (.err .bufferTooSmall, none) := by decide

/-- Rd1 on a buffer that holds a longer frame: the tail stays (program B, step 1). -/
theorem test_read_keeps_tail :
    after 10 (exec (.read 1 0x38 2) (holding 16 [1, 2, 3, 4, 5, 6, 7, 8, 0xE8, 0x03])) =
      some (.encOk 8, some [0xFF, 0xFF, 0x01, 0x04, 0x02, 0x38, 0x02, 0xBE, 0xE8, 0x03]) := by decide

/-- W5, the source's S1, with an exact fit (W16). -/
theorem test_write : after 13 (exec (.write 1 0x2A [0x00, 0x08, 0x00, 0x00, 0xE8, 0x03]) (room 13)) =
    some (.encOk 13, some [0xFF, 0xFF, 0x01, 0x09, 0x03, 0x2A, 0x00, 0x08, 0x00, 0x00, 0xE8, 0x03,
      0xD5]) := by decide

/-- W14: Oversize before BufferTooSmall. -/
theorem test_write_oversize : after 0 (exec (.write 1 0 (List.replicate 300 0)) (room 4)) =
    some (.err .oversize, some []) := by decide +kernel

/-! ## DEC -/

/-- DV30, DV4, DV28, DV33b. -/
theorem test_reply_accepts :
    decOf [0xFF, 0xFF, 0x03, 0x05, 0x00, 0xAA, 0xBB, 0xCC, 0xC6] = some (.decOk 3 0 5 3) ∧
    decOf [0xFF, 0xFF, 0x01, 0x02, 0x20, 0xDC] = some (.decOk 1 0x20 5 0) ∧
    decOf [0xFF, 0xFF, 0xFF, 0x02, 0x00, 0xFE] = some (.decOk 255 0 5 0) ∧
    decOf [0xFF, 0xFF, 0x01, 0x02, 0x01, 0xFB] = some (.decOk 1 1 5 0) := by decide

/-- DV6, DV7, DV9, DV11, DV15, DV16, DV20, DV23. -/
theorem test_reply_rejects :
    decOf [] = some (.err .invalidHeader) ∧
    decOf [0xFF] = some (.err .invalidHeader) ∧
    decOf [0xFF, 0xFF] = some (.err .lengthError) ∧
    decOf [0xFF, 0xFF, 0x01, 0x02, 0x00] = some (.err .lengthError) ∧
    decOf [0xFF, 0xFE, 0x01, 0x02, 0x00, 0x00] = some (.err .invalidHeader) ∧
    decOf [0xFF, 0xFF, 0x01, 0x02, 0x00, 0xFC, 0x00] = some (.err .lengthError) ∧
    decOf [0xFF, 0xFF, 0x01, 0x01, 0x00, 0xFD] = some (.err .lengthError) ∧
    decOf [0xFF, 0xFF, 0x01, 0x04, 0x00, 0x01, 0x08, 0xF2] = some (.err .checksumMismatch) := by
  decide

/-- Program F: the first DEC after reset has no meaning. -/
theorem test_reply_unwritten_faults : exec (.reply 6) (room 16) = .fault .noValue := by rfl

/-- DV35: a count above CAP, checked before any byte is read. -/
theorem test_reply_above_capacity : after 0 (exec (.reply 8) (room 7)) =
    some (.err .lengthError, some []) := by decide

/-! ## The step -/

/-- A table word is fetched and run as the first step after reset (log entry 3). -/
theorem test_step_runs_fetched_word :
    after 6 (step (State.reset.withFetchWord 40 0x010209FFFF)) =
      some (.encOk 6, some [0xFF, 0xFF, 0x09, 0x02, 0x01, 0xF3]) := by decide

/-- A fetched reply is deposited and decoded; its zero checksum is wrong. -/
theorem test_step_runs_fetched_reply :
    after 0 (step (State.reset.withFetchWord 40 0x000209FFFF)) =
      some (.err .checksumMismatch, some []) := by decide

/-- Program D, step 2: the window of the earlier reply is gone. -/
theorem test_stale_window_faults :
    step (hosting .window { holding 16 [0xFF, 0xFF, 1, 4, 0, 0, 8, 0xF2] with
      res := .decOk 1 0 5 2 }) = .fault .staleWindow := by rfl

/-! ## The host -/

/-- The channel delivers these bytes to one frame. -/
def answers (v : List Byte) : Transfer := { write := .accepts 259, read := .delivers v }

/-- What a host step returned, and what went out on the wire. -/
def told (x : Host.Outcome State Fault Refusal) : Option (HostResult × List Byte) :=
  (nextOf x).map fun t => (t.hostRes, t.wireOut)

/-- H1. -/
theorem test_read_u16 :
    told (step (hosting (.readU16 1 0x38)
      (wired [answers [0xFF, 0xFF, 0x01, 0x04, 0x00, 0x00, 0x08, 0xF2]] (room 16)))) =
      some (.value 2048, [0xFF, 0xFF, 0x01, 0x04, 0x02, 0x38, 0x02, 0xBE]) := by decide

/-- H7: the tick turns a nonzero status into StatusError and the command is gone. -/
theorem test_tick_status_error :
    told (step (hosting .process
      { wired [answers [0xFF, 0xFF, 0x01, 0x02, 0x20, 0xDC]] (room 16) with
        queue := [{ id := 1, target := 2048, tail := .none }] })) =
      some (.error (.statusError 0x20), [0xFF, 0xFF, 0x01, 0x05, 0x03, 0x2A, 0x00, 0x08, 0xC4]) := by
  decide

/-- DV21's error kind, which the host reads from RES (R25, R29). -/
theorem test_read_kind :
    told (step (hosting (.readRes .kind) (raise .checksumMismatch (room 6)))) =
      some (.kind .checksumMismatch, []) := by decide

/-- A read of the torque-enable register: W2's address, one byte (R150, R151). -/
theorem test_read_torque :
    told (step (hosting (.readTorque 1)
      (wired [answers [0xFF, 0xFF, 0x01, 0x03, 0x00, 0x01, 0xFA]] (room 16)))) =
      some (.value 1, [0xFF, 0xFF, 0x01, 0x04, 0x02, 0x28, 0x01, 0xCF]) := by decide

/-- The snapshot shows the cached goal of each actuator (R164). -/
theorem test_snapshot :
    told (step (hosting .snapshot { room 6 with servos := [{ ServoInfo.zero with id := 1, goal := 4086 }] })) =
      some (.snapshot [{ ServoInfo.zero with id := 1, goal := 4086 }], []) := by decide

/-- S6 and the sums derived from R160 beside it. -/
theorem test_relative_moves :
    newGoal 100 (-90) = 10 ∧ newGoal 10 (-20) = 4086 ∧ newGoal 4086 20 = 10 ∧
    newGoal 0 (-1) = 4095 ∧ newGoal 4095 1 = 0 ∧ newGoal 0 (-4097) = 4095 := by decide

/-- A tick with telemetry is write, then refresh (R161). -/
theorem test_tick_order : tickProgram true = [.process, .update] ∧ tickProgram false = [.process] := by
  decide

/-! ## The statements' hypotheses are met

For each statement of `Certificates/Slice0/Obligations.lean` with hypotheses, named in the theorem, and
for each of its clauses, at a boundary value. -/

/-- DV1, the minimal reply, and a Ping's frame. -/
def dv1 : List Byte := [0xFF, 0xFF, 0x01, 0x02, 0x00, 0xFC]

/-- DV2. -/
def dv2 : List Byte := [0xFF, 0xFF, 0x01, 0x04, 0x00, 0x00, 0x08, 0xF2]

/-- DV2 stored and parsed, its window live. -/
def parsed : State :=
  { holding 8 dv2 with res := .decOk 1 0 5 2, windowLive := true }

theorem test_witness_ChecksumArithmeticLaws :
    [(1 : Byte), 2, 3].Perm [3, 2, 1] ∧ (([0xFF] : List Byte).map BitVec.toNat).sum % 256 = 255 ∧
    (([0x80, 0x80] : List Byte).map BitVec.toNat).sum % 256 = 0 := by decide

theorem test_witness_ChecksumSeesOneChangedByte : (0x00 : Byte) ≠ 0xFF := by decide

/-- Also of EncodedFrameIsConsistent and, with `j = i`, of DifferentInstructionsDifferentFrames. -/
theorem test_witness_DecodeOfEncodeIsIdentity :
    (∃ i, i = Instr.ping 255 ∧ direction i = .sent ∧ i.wf = true) ∧
    (∃ i, i = Instr.read 255 255 0 ∧ direction i = .sent ∧ i.wf = true) ∧
    (∃ i, i = Instr.write 0 0 [] ∧ direction i = .sent ∧ i.wf = true) ∧
    (∃ i, i = Instr.write 0 0 (List.replicate 252 0xFF) ∧ direction i = .sent ∧ i.wf = true) ∧
    (Instr.reply 6).wf = true ∧ (Instr.reply 259).wf = true :=
  ⟨⟨_, rfl, by decide +kernel⟩, ⟨_, rfl, by decide +kernel⟩, ⟨_, rfl, by decide +kernel⟩,
    ⟨_, rfl, by decide +kernel⟩, by decide +kernel⟩

theorem test_witness_DecodedBytesAreTheFrame :
    decode .sent [0xFF, 0xFF, 0x01, 0x02, 0x01, 0x00, 0x77] = .ok (.ping 1, [0x77]) := by decide

theorem test_witness_DifferentInstructionsDifferentFrames :
    encode (.ping 1) = encode (.ping 1) ∧ encode (.ping 1) ≠ encode (.ping 2) := by decide

theorem test_witness_InstructionRowsDoNotOverlap :
    (List.replicate 252 (0 : Byte)).length ≤ 252 ∧
    ∀ row ∈ opcodeTable.take 3, ∃ i ∈ [Instr.ping 1, .read 1 2 3, .write 1 2 []],
      row.fits (encode i) = true := by decide +kernel

theorem test_witness_PingEncodesSixBytes : 6 ≤ (room 6).cfg.cap := by decide

theorem test_witness_ReadEncodesEightBytes : 8 ≤ (room 8).cfg.cap := by decide

theorem test_witness_WriteEncodesPayloadVerbatim :
    (List.replicate 252 (0 : Byte)).length ≤ 252 ∧
    7 + (List.replicate 252 (0 : Byte)).length ≤ (room 259).cfg.cap := by decide +kernel

theorem test_witness_EncWithoutRoomIsBufferTooSmall :
    (room 5).cfg.cap < 6 ∧ (room 7).cfg.cap < 8 ∧ (room 6).cfg.cap < 7 + ([] : List Byte).length ∧
    (room 258).cfg.cap < 7 + (List.replicate 252 (0 : Byte)).length := by decide +kernel

theorem test_witness_LongWriteIsOversize : 252 < (List.replicate 253 (0 : Byte)).length := by
  decide +kernel

/-- Its success clauses, with the byte just beyond the frame and with an id that marks the run, and its
error clause. -/
theorem test_witness_EncLeavesTheRestAlone :
    (∃ t, exec (.ping 254) (room 6) = .next t ∧ t.res = .encOk 6 ∧ t.marked = true ∧
      servoId (.ping 254) = some 254 ∧ (encode (.ping 254)).length ≤ 6) ∧
    (∃ t, exec (.ping 1) (room 5) = .next t ∧ t.res = .err .bufferTooSmall) :=
  ⟨⟨_, rfl, by decide, by decide, rfl, by decide⟩, ⟨_, rfl, by decide⟩⟩

/-- Also of EncodedFrameDecodes. -/
theorem test_witness_EncodedFrameLoadsBack :
    direction (.ping 1) = .sent ∧ servoId (.ping 1) = some 1 ∧
    ∃ t, exec (.ping 1) (room 6) = .next t ∧ t.res = .encOk 6 := ⟨rfl, rfl, _, rfl, by decide⟩

theorem test_witness_EncReadsOperandsOnly :
    (room 6).cfg.cap = (holding 6 dv1).cfg.cap ∧
    ∃ t t', exec (.ping 1) (room 6) = .next t ∧ exec (.ping 1) (holding 6 dv1) = .next t' ∧
      t.res = .encOk 6 := ⟨by decide, _, _, rfl, rfl, by decide⟩

/-- DV32, the longest reply: 253 data bytes of zero. -/
def dv32 : List Byte := [0xFF, 0xFF, 0x01, 0xFF, 0x00] ++ List.replicate 253 0x00 ++ [0xFF]

theorem holding_read (cap : Nat) (r : List Byte) :
    memRead (holding cap r).buf 0 r.length = some r := memRead_memWrite_self _ _ _

/-- The shortest reply, filling BUF. -/
theorem test_witness_GoodReplyDecodes :
    6 ≤ (holding 6 dv1).cfg.cap ∧ memRead (holding 6 dv1).buf 0 6 = some dv1 ∧
    byteAt dv1 0 = 0xFF ∧ byteAt dv1 1 = 0xFF ∧ (byteAt dv1 3).toNat + 4 = 6 ∧
    csum (slice dv1 2 5) = byteAt dv1 5 := by decide

/-- The longest reply. -/
theorem test_witness_GoodReplyDecodes_longest :
    dv32.length = 259 ∧ memRead (holding 259 dv32).buf 0 dv32.length = some dv32 ∧
    byteAt dv32 0 = 0xFF ∧ byteAt dv32 1 = 0xFF ∧ (byteAt dv32 3).toNat + 4 = 259 ∧
    csum (slice dv32 2 258) = byteAt dv32 258 :=
  ⟨by decide +kernel, holding_read _ _, by decide +kernel⟩

/-- No byte, a wrong first and a wrong second byte. -/
theorem test_witness_InvalidHeaderExactlyWhen :
    (0 ≤ (room 6).cfg.cap ∧ memRead (room 6).buf 0 0 = some []) ∧
    (memRead (holding 6 [0xFE, 0xFF]).buf 0 2 = some [0xFE, 0xFF]) ∧
    (memRead (holding 6 [0xFF, 0xFE]).buf 0 2 = some [0xFF, 0xFE]) ∧
    ∃ t, exec (.reply 0) (room 6) = .next t ∧ t.res = .err .invalidHeader :=
  ⟨by decide, by decide, by decide, _, rfl, by decide⟩

/-- A count above CAP, a header alone, and a length byte one too large. -/
theorem test_witness_LengthErrorExactlyWhen :
    (room 7).cfg.cap < 8 ∧ memRead (holding 7 [0xFF, 0xFF]).buf 0 2 = some [0xFF, 0xFF] ∧
    decodeReply [0xFF, 0xFF, 0x01, 0x03, 0x00, 0xFC] = .error .lengthError ∧
    ∃ t, exec (.reply 8) (room 7) = .next t ∧ t.res = .err .lengthError :=
  ⟨by decide, by decide, by decide, _, rfl, by decide⟩

/-- DV21. -/
theorem test_witness_ChecksumMismatchExactlyWhen :
    let r : List Byte := [0xFF, 0xFF, 0x01, 0x02, 0x00, 0xFD];
    memRead (holding 6 r).buf 0 6 = some r ∧ (byteAt r 3).toNat + 4 = 6 ∧
    csum (slice r 2 5) ≠ byteAt r 5 ∧
    (nextOf (exec (.reply 6) (holding 6 r))).map State.res = some (.err .checksumMismatch) := by
  decide

theorem test_witness_EncErrorsExactlyWhen :
    (nextOf (exec (.write 0 0 (List.replicate 253 0)) (room 300))).map State.res =
      some (.err .oversize) ∧
    (∃ t, exec (.ping 0) (room 5) = .next t ∧ t.res = .err .bufferTooSmall) ∧
    direction (.ping 0) = .sent ∧ (Instr.ping 0).wf = true ∧
    (room 5).cfg.cap < (encode (.ping 0)).length :=
  ⟨by decide +kernel, ⟨_, rfl, by decide⟩, by decide⟩

/-- The last byte of a range that fills BUF has no value. -/
theorem test_witness_OnlyUnwrittenBytesFault :
    let s := holding 6 [0xFF, 0xFF, 0x01, 0x02, 0x00];
    6 ≤ s.cfg.cap ∧ 5 < 6 ∧ readByte s.buf 5 = none ∧ exec (.reply 6) s = .fault .noValue :=
  ⟨by decide, by decide, by decide, rfl⟩

/-- An accepted reply and a rejected one. -/
theorem test_witness_DecLeavesTheRestAlone :
    (∃ t, exec (.reply 6) (holding 6 dv1) = .next t) ∧ ∃ t, exec (.reply 0) (room 6) = .next t :=
  ⟨⟨_, rfl⟩, ⟨_, rfl⟩⟩

/-- Two buffers that differ beyond the range and in RES; and a range with an unwritten byte. -/
theorem test_witness_DecReadsOnlyItsRange :
    (∀ a < 6, readByte (holding 8 dv1).buf a = readByte (holding 8 (dv1 ++ [0x55])).buf a) ∧
    (∃ t, exec (.reply 6) (holding 8 dv1) = .next t) ∧
    (∀ a < 1, readByte (room 8).buf a = readByte { room 8 with res := .encOk 6 }.buf a) ∧
    exec (.reply 1) (room 8) = .fault .noValue := ⟨by decide, ⟨_, rfl⟩, by decide, rfl⟩

/-- No data, and 253 bytes of it. -/
theorem test_witness_WellFormedReplyRoundTrips :
    ((0x02 : Byte).toNat = ([] : List Byte).length + 2 ∧ 6 ≤ (holding 6 dv1).cfg.cap ∧
      memRead (holding 6 dv1).buf 0 6 =
        some ([0xFF, 0xFF, 0x01, 0x02, 0x00] ++ [] ++ [csum ([0x01, 0x02, 0x00] ++ [])])) ∧
    (let d := List.replicate 253 (0x00 : Byte);
     (0xFF : Byte).toNat = d.length + 2 ∧ 6 + d.length ≤ (holding 259 dv32).cfg.cap ∧
      memRead (holding 259 dv32).buf 0 dv32.length = some dv32 ∧
      dv32 = [0xFF, 0xFF, 0x01, 0xFF, 0x00] ++ d ++ [csum ([0x01, 0xFF, 0x00] ++ d)] ∧
      dv32.length = 6 + d.length) :=
  ⟨by decide, by decide +kernel, by decide +kernel, holding_read _ _, by decide +kernel⟩

/-- The only data byte of a reply, and the first of DV23's two. -/
theorem test_witness_FlippedDataByteIsMismatch :
    (let r := [0xFF, 0xFF, 0x01, 0x03, 0x00] ++ [0x24] ++ [csum [0x01, 0x03, 0x00, 0x23]];
     (0x03 : Byte).toNat = 0 + 1 + 0 + 2 ∧ (0x23 : Byte) ≠ 0x24 ∧ memRead (holding 7 r).buf 0 7 = some r) ∧
    (let r := [0xFF, 0xFF, 0x01, 0x04, 0x00] ++ [0x01, 0x08] ++ [csum [0x01, 0x04, 0x00, 0x00, 0x08]];
     (0x04 : Byte).toNat = 0 + 1 + 1 + 2 ∧ memRead (holding 8 r).buf 0 8 = some r) := by decide

theorem test_witness_FailedCommandChangesResultOnly :
    (∃ t, exec (.ping 1) (room 5) = .next t ∧ t.res = .err .bufferTooSmall) ∧
    ∃ t, exec (.reply 0) (room 5) = .next t ∧ t.res = .err .invalidHeader :=
  ⟨⟨_, rfl, by decide⟩, ⟨_, rfl, by decide⟩⟩

theorem test_witness_CommandsAreIdempotent :
    (holding 16 dv1).buf.wf = true ∧ ∃ t, exec (.read 1 0x38 2) (holding 16 dv1) = .next t :=
  ⟨by decide, _, rfl⟩

/-- A store that ends at CAP, with the byte before it; and an empty store at CAP. -/
theorem test_witness_StoreThenLoadReturnsBytes :
    2 + [(0xAA : Byte), 0xBB].length ≤ (room 4).cfg.cap ∧ 1 < 2 ∧
    4 + ([] : List Byte).length ≤ (room 4).cfg.cap := by decide

theorem test_witness_AccessOutsideOrUnwrittenFaults :
    (room 4).cfg.cap < 3 + [(0xAA : Byte), 0xBB].length ∧ (room 4).cfg.cap < 4 + 1 ∧
    2 + 2 ≤ (room 4).cfg.cap ∧ readByte (room 4).buf (2 + 1) = none := by decide

theorem parsed_inv : parsed.Inv where
  bufCanonical := by decide
  bufInside := show ∀ c ∈ parsed.buf, c.1 < parsed.cfg.cap by decide
  resInRange := show 5 = 5 ∧ 2 ≤ 253 ∧ 2 + 6 ≤ parsed.cfg.cap ∧ (memRead parsed.buf 0 8).isSome by decide
  windowHoldsReply := fun _ => ⟨1, 0, 2, dv2, [0x00, 0x08], rfl, by decide, by decide⟩
  queueBounded := ⟨by decide, fun c hc => absurd hc (by simp [parsed, holding, room, State.resetWith])⟩
  servosConfigured := rfl

theorem test_witness_LiveWindowYieldsReplyData : parsed.Inv ∧ parsed.windowLive = true :=
  ⟨parsed_inv, rfl⟩

theorem test_witness_WindowDiesWithTheNextWrite :
    (parsed.res = .decOk 1 0 5 2 ∧ ∃ t, hostStore 0 [0xAA] parsed = .next t) ∧
    (direction (.ping 1) = .sent ∧ ∃ t, exec (.ping 1) parsed = .next t) :=
  ⟨⟨rfl, _, rfl⟩, rfl, _, rfl⟩

theorem test_witness_ResultFieldsByShape :
    (room 6).res = .idle ∧ (raise .oversize (room 6)).res = .err .oversize ∧
    (writeFrame 1 dv1 (room 6)).res = .encOk 6 ∧ parsed.res = .decOk 1 0 5 2 := by decide

theorem test_witness_QuietStepsLeaveTheBlockAlone :
    (∃ t, runHostStep .tx { parsed with res := .encOk 8 } = .next t) ∧
    (∃ t, runHostStep .window parsed = .next t) ∧ (∃ t, runHostStep (.load 8 0) parsed = .next t) ∧
    (∃ t, runHostStep .readRecord parsed = .next t) ∧ (∃ t, runHostStep .snapshot parsed = .next t) ∧
    (∃ t, runHostStep (.readRes .doff) parsed = .next t) ∧
    (∃ t, runHostStep (.moveTo 1 4095 .none) parsed = .next t) ∧
    (∃ t, runHostStep (.moveBy 1 (-1) .none) parsed = .next t) ∧
    (∃ t, runHostStep (.cached 2 .error) parsed = .next t) :=
  ⟨⟨_, rfl⟩, ⟨_, rfl⟩, ⟨_, rfl⟩, ⟨_, rfl⟩, ⟨_, rfl⟩, ⟨_, rfl⟩, ⟨_, rfl⟩, ⟨_, rfl⟩, ⟨_, rfl⟩⟩

theorem test_witness_StepRunsTheDecodedInstruction :
    (hosting (.issue (.ping 1)) (room 6)).program = [.issue (.ping 1)] ∧
    (hosting (.code [0xFF, 0xFF, 0x01, 0x02, 0x01, 0xFB]) (room 6)).program =
      [.code [0xFF, 0xFF, 0x01, 0x02, 0x01, 0xFB]] ∧
    decode .sent [0xFF, 0xFF, 0x01, 0x02, 0x01, 0xFB] = .ok (.ping 1, []) ∧
    (room 6).program = [] := ⟨rfl, rfl, by decide, rfl⟩

/-- Code 04 is none of the block's; and one byte after a Ping's frame. -/
theorem test_witness_UnknownInstructionIsRefused :
    (hosting (.code [0xFF, 0xFF, 0x01, 0x02, 0x04, 0xF8]) (room 6)).program =
      [.code [0xFF, 0xFF, 0x01, 0x02, 0x04, 0xF8]] ∧
    decode .sent [0xFF, 0xFF, 0x01, 0x02, 0x04, 0xF8] = .error .unknownCode ∧
    (hosting (.code [0xFF, 0xFF, 0x01, 0x02, 0x01, 0xFB, 0x00]) (room 6)).program =
      [.code [0xFF, 0xFF, 0x01, 0x02, 0x01, 0xFB, 0x00]] ∧
    decode .sent [0xFF, 0xFF, 0x01, 0x02, 0x01, 0xFB, 0x00] = .ok (.ping 1, [0x00]) :=
  ⟨rfl, by decide, rfl, by decide⟩

/-- Also of StepKeepsConfiguration and WireOnlyGrows. -/
theorem test_witness_StepKeepsInvariant :
    { parsed with program := [.issue (.ping 1)] }.Inv ∧
    ∃ t, step { parsed with program := [.issue (.ping 1)] } = .next t :=
  ⟨⟨parsed_inv.1, parsed_inv.2, parsed_inv.3, parsed_inv.4, parsed_inv.5, parsed_inv.6⟩, _, rfl⟩

theorem test_witness_WrittenBytesKeepAValue :
    let s := hosting (.rx [0xAA]) (holding 6 dv1);
    s.program.head? ≠ some .reset ∧ (∃ t, step s = .next t) ∧ readByte s.buf 5 ≠ none :=
  ⟨by decide, ⟨_, rfl⟩, by decide⟩

/-- Highest unicast id, exact fit, exact count; a reply that is none. -/
theorem test_witness_SendReturnsTheDecodedReply :
    servoId (.ping 253) = some 253 ∧ (253 : Byte).toNat ≤ 253 ∧ (Instr.ping 253).wf = true ∧
    (encode (.ping 253)).length ≤ (room 6).cfg.cap ∧
    (wired [{ write := .accepts 6, read := .delivers [] }] (room 6)).channel =
      [{ write := .accepts 6, read := .delivers [] }] ∧
    (encode (.ping 253)).length ≤ 6 := by decide

/-- Each clause on its own channel. -/
theorem test_witness_SendStopsAtTransportFailure :
    servoId (.ping 1) = some 1 ∧ (Instr.ping 1).wf = true ∧
    (encode (.ping 1)).length ≤ (room 6).cfg.cap ∧
    (wired [{ write := .fails 0, read := .fails [] }] (room 6)).channel =
      [{ write := .fails 0, read := .fails [] }] ∧
    (wired [{ write := .accepts 6, read := .fails [0xFF] }] (room 6)).channel =
      [{ write := .accepts 6, read := .fails [0xFF] }] := by decide

theorem test_witness_SendAlwaysReturns :
    servoId (.ping 253) = some 253 ∧ (253 : Byte).toNat ≤ 253 := by decide

/-- The lowest id refused, also where it is configured. -/
theorem test_witness_HostRefusesUnexercisedIds :
    servoId (.ping 254) = some 254 ∧ 253 < (254 : Byte).toNat ∧
    findServo 254 (State.resetWith { Config.standard with ids := [254] }) ≠ none := by decide

/-- A reply with data and one without, for either width; the status test on, the status 0. -/
theorem test_witness_RegisterReadsTakeFirstBytes :
    let s := fun v => { wired [answers v] (room 16) with
      cfg := { Config.standard with readTestsStatus := true } };
    (∃ t, send (.read 1 0x38 1) (s dv2) =
      .next (t, .ok { servoId := 1, status := 0, data := [0x00, 0x08] })) ∧
    (∃ t, send (.read 1 0x38 1) (s dv1) = .next (t, .ok { servoId := 1, status := 0, data := [] })) ∧
    (∃ t, send (.read 1 0x38 2) (s dv2) =
      .next (t, .ok { servoId := 1, status := 0, data := [0x00, 0x08] })) ∧
    (∃ t, send (.read 1 0x38 2) (s dv1) = .next (t, .ok { servoId := 1, status := 0, data := [] })) :=
  ⟨⟨_, rfl⟩, ⟨_, rfl⟩, ⟨_, rfl⟩, ⟨_, rfl⟩⟩

/-- A move of actuator `id`. -/
def move (id : Byte) : MoveCommand := { id := id, target := 10, tail := .none }

/-- One place left, and none. -/
theorem test_witness_EnqueuePushesOneOrOverflows :
    (move 253).id.toNat ≤ 253 ∧
    { room 6 with queue := List.replicate 7 (move 1) }.queue.length < (room 6).cfg.qcap ∧
    (room 6).cfg.qcap ≤ { room 6 with queue := List.replicate 8 (move 1) }.queue.length := by decide

theorem test_witness_RelativeMoveWrapsEuclidean :
    (findServo 2 (room 6)).map ServoInfo.id = some 2 ∧ (2 : Byte).toNat ≤ 253 ∧
    (room 6).queue.length < (room 6).cfg.qcap := by decide

theorem test_witness_TickFlushesExactlyOneMove :
    (room 6).queue = [] ∧
    { room 6 with queue := [move 253, move 1] }.queue = move 253 :: [move 1] ∧
    (move 253).id.toNat ≤ 253 := by decide

/-- The move just enqueued is flushed; the channel stays silent. -/
theorem test_witness_LastMoveQueuedIsFlushedFirst :
    (move 1).id.toNat ≤ 253 ∧ (room 16).queue.length < (room 16).cfg.qcap ∧
    ∃ s' t, enqueue (move 1) (room 16) = .next s' ∧ processQueue s' = .next t :=
  ⟨by decide, by decide, _, _, rfl, rfl⟩

/-- A failed write, and a failed read. -/
theorem test_witness_TransportFailureLeavesValuesStale :
    ({ ServoInfo.zero with id := 253 }).id.toNat ≤ 253 ∧ 8 ≤ (room 8).cfg.cap ∧
    (wired [{ write := .fails 0, read := .fails [] }] (room 8)).channel =
      [{ write := .fails 0, read := .fails [] }] ∧
    (wired [{ write := .accepts 8, read := .fails [] }] (room 8)).channel =
      [{ write := .accepts 8, read := .fails [] }] := by decide

/-- A read that is answered, one that fails in the channel, and a first read that fails in the codec. -/
theorem test_witness_FailedFieldFallsBack :
    (∃ t, readField 1 .temperature (wired [answers [0xFF, 0xFF, 1, 3, 0, 0x23, 0xD8]] (room 16)) =
      .next (t, .ok 0x23)) ∧
    (∃ t, readField 1 .speed (room 16) = .next (t, .error .transportRead)) ∧
    (∃ t, readField 1 .position (wired [answers []] (room 16)) =
      .next (t, .error (.codec .invalidHeader))) ∧
    isTransport (.codec .invalidHeader) = false ∧ Field.speed ≠ .moving :=
  ⟨⟨_, rfl⟩, ⟨_, rfl⟩, ⟨_, rfl⟩, rfl, by decide⟩

end Sys2Proof.Tests
end

