-- ==== Sys2Proof/Proofs/Encoding.lean ====
section
/-! PROOFS. ENC of a frame that fits, as what BUF and RES then hold (`41_encode.md` section 2), and the
frames of Read and Write written out (R69, R70). -/

namespace Sys2Proof.Machine

/-- The byte sum mod 256 is the sum in 8-bit arithmetic, the carries discarded. -/
theorem ofNat_byteSum (s : List Byte) : BitVec.ofNat 8 (byteSum s) = s.sum := by
  induction s with
  | nil => rfl
  | cons b s ih =>
    rw [byteSum, BitVec.ofNat_add, ih, BitVec.ofNat_toNat, BitVec.setWidth_eq, List.sum_cons]

/-- CSUM in 8-bit arithmetic: the complement of the bytes' sum. -/
theorem csum_eq_not_sum (s : List Byte) : csum s = ~~~ s.sum := by
  have mod_256 : BitVec.ofNat 8 (byteSum s % 256) = BitVec.ofNat 8 (byteSum s) :=
    BitVec.eq_of_toNat_eq (by simp)
  rw [csum, mod_256, ofNat_byteSum]

/-- After ENC of an instruction whose frame exists and fits, RES reports the frame's length and the bytes
of BUF from offset 0 are the frame. -/
theorem exec_sent_writes_frame {i : Instr} {id : Byte} {s : State} (h : servoId i = some id)
    (hw : i.wf = true) (hc : (encode i).length ≤ s.cfg.cap) :
    ∃ t, exec i s = .next t ∧ t.res = .encOk (encode i).length ∧
      memRead t.buf 0 (encode i).length = some (encode i) :=
  ⟨writeFrame id (encode i) s, exec_sent_fits h hw hc, writeFrame_res s id _,
    memRead_memWrite_self _ _ _⟩

theorem encode_read (id addr rlen : Byte) :
    encode (.read id addr rlen) =
      [0xFF, 0xFF, id, 0x04, 0x02, addr, rlen, csum [id, 0x04, 0x02, addr, rlen]] := rfl

/-- The length byte is the low byte of `3 + L` for every `L`; R72's bound `L ≤ 252` makes it exact. -/
theorem encode_write (id addr : Byte) (pay : List Byte) :
    encode (.write id addr pay) =
      [0xFF, 0xFF, id, lowByte (3 + pay.length), 0x03, addr] ++ pay ++
        [csum ([id, lowByte (3 + pay.length), 0x03, addr] ++ pay)] := rfl

/-- R69's checksum in R103's form. -/
theorem csum_readBody (id addr rlen : Byte) :
    csum [id, 0x04, 0x02, addr, rlen] = ~~~(id + 6 + addr + rlen) := by
  have sum_eq : [id, 0x04, 0x02, addr, rlen].sum = id + 6 + addr + rlen := by
    simp only [List.sum_cons, List.sum_nil]
    ring
  rw [csum_eq_not_sum, sum_eq]

/-- Settles O13: the frame of a Read is R69's eight bytes, and ENC writes the frame. -/
theorem readEncodesEightBytes : Obligations.ReadEncodesEightBytes := by
  intro id addr rlen s hcap
  obtain ⟨t, hexec, hres, hbuf⟩ :=
    exec_sent_writes_frame (i := .read id addr rlen) (s := s) rfl rfl hcap
  rw [encode_length_read] at hres hbuf
  exact ⟨t, hexec, hres, by rw [hbuf, encode_read], csum_readBody id addr rlen⟩

/-- Settles O14: the frame of a Write is R70's bytes, with a length byte that `3 + L` does not overflow
for `L ≤ 252`, and ENC writes the frame. -/
theorem writeEncodesPayloadVerbatim : Obligations.WriteEncodesPayloadVerbatim := by
  intro id addr pay s hpay hcap
  rw [← encode_length_write id addr pay] at hcap ⊢
  obtain ⟨t, hexec, hres, hbuf⟩ := exec_sent_writes_frame rfl (write_wf_iff.mpr hpay) hcap
  exact ⟨t, lowByte (3 + pay.length), hexec, hres, lowByte_toNat (by omega),
    by rw [hbuf, encode_write]⟩

end Sys2Proof.Machine
end

