-- ==== Sys2Proof/Proofs/Checksum.lean ====
section
/-! PROOFS. The value of CSUM as a number (`40_checksum.md` section 1). -/

namespace Sys2Proof.Machine

/-- R90's equivalent form: the complement of an 8-bit value is its distance to 255. -/
theorem csum_toNat (s : List Byte) : (csum s).toNat = 255 - byteSum s % 256 := by
  rw [csum, BitVec.toNat_not, BitVec.toNat_ofNat, Nat.mod_mod]

/-- Settles O1: by `csum_toNat` for every sequence, and by evaluation for R90's worked example. -/
theorem checksumIsComplementOfByteSum : Obligations.ChecksumIsComplementOfByteSum := by
  constructor
  · intro s
    rw [csum_toNat, byteSum_eq_sum]
  · decide

end Sys2Proof.Machine
end

/-! PROOFS. What a position write sends, that `send` to a single actuator always answers, and the tick on
these two (`45_host_context.md` sections 1 to 3). -/

namespace Sys2Proof.Machine

/-! ## Position writes -/

@[simp] theorem le16_length (v : Half) : (le16 v).length = 2 := rfl

@[simp] theorem positionPayload_none (p : Half) : positionPayload p .none = le16 p :=
  List.append_nil _

@[simp] theorem positionPayload_speed (p v : Half) :
    positionPayload p (.speed v) = le16 p ++ le16 v := rfl

@[simp] theorem positionPayload_speedAccel (p v a : Half) :
    positionPayload p (.speedAccel v a) = le16 p ++ le16 v ++ le16 a :=
  (List.append_assoc _ _ _).symm

theorem writePosition_eq_send (id : Byte) (p : Half) (tail : MoveTail) (s : State) :
    writePosition id p tail s = send (.write id 0x2A (positionPayload p tail)) s := rfl

/-- Settles O54: the payload of each shape by its own equation, the frame lengths by R70's `7 + L` with
two bytes for each value. -/
theorem positionWriteFrames : Obligations.PositionWriteFrames := by
  intro id p v a s
  refine ⟨?none, ?speed, ?speedAccel, ?length9, ?length11, ?length13⟩
  case none => rw [writePosition_eq_send, positionPayload_none]
  case speed => rw [writePosition_eq_send, positionPayload_speed]
  case speedAccel => rw [writePosition_eq_send, positionPayload_speedAccel]
  case length9 => rw [encode_length_write, le16_length]
  case length11 => simp [encode_length_write]
  case length13 => simp [encode_length_write]

/-! ## `send` always answers -/

/-- Whatever the channel delivers, at most CAP bytes of it are stored, and DEC finds each of them written. -/
theorem channelRead_returns (x : ReadAnswer) (s : State) : ∃ t r, channelRead x s = .next (t, r) := by
  cases x with
  | fails v =>
    have stored := hostStore_eq_next.mpr
      ⟨show 0 + (v.take s.cfg.cap).length ≤ s.cfg.cap by simp, rfl⟩
    exact ⟨_, _, by rw [channelRead, stored, andThen_next]⟩
  | delivers v =>
    obtain ⟨t, received, -⟩ :=
      receiveReply_spec (v := v.take s.cfg.cap) (s := s) (List.length_take_le _ _)
    exact ⟨t, _, received⟩

/-- Once TX has loaded the frame, no answer of the channel stops the exchange. -/
theorem exchange_returns {s s1 : State} {bs : List Byte} (h : loadFrame s = .next (s1, bs)) :
    ∃ t r, exchange s = .next (t, r) := by
  unfold exchange
  rw [h, andThen_next]
  dsimp only
  split
  · exact ⟨_, _, rfl⟩
  · exact channelRead_returns _ _

/-- ENC of an instruction that has no frame, or whose frame does not fit, raises. -/
theorem exec_sent_raises {i : Instr} {id : Byte} {s : State} (hid : servoId i = some id)
    (h : ¬ (i.wf = true ∧ (encode i).length ≤ s.cfg.cap)) : ∃ k, exec i s = .next (raise k s) := by
  obtain ⟨t, answers⟩ : ∃ t, exec i s = .next t := ⟨_, exec_of_sent hid s⟩
  obtain ⟨-, -, ⟨-, rfl⟩ | ⟨-, -, rfl⟩ | ⟨hw, hc, -⟩⟩ :=
    exec_sent_cases (sent_of_servoId hid) answers
  · exact ⟨.oversize, answers⟩
  · exact ⟨.bufferTooSmall, answers⟩
  · exact absurd ⟨hw, hc⟩ h

/-- `send` hands on the error that ENC raised, and nothing is sent. -/
theorem send_of_exec_raises {i : Instr} {id : Byte} {s : State} {k : ErrKind}
    (hid : servoId i = some id) (h253 : id.toNat ≤ 253) (h : exec i s = .next (raise k s)) :
    send i s = .next (raise k s, .error (.codec k)) := by
  unfold send
  simp only [hid]
  rw [if_neg (Nat.not_lt.mpr h253), h]
  rfl

/-- `send` to a single actuator answers, whether the frame fits or ENC raises. -/
theorem send_returns {i : Instr} {id : Byte} (hid : servoId i = some id) (h253 : id.toNat ≤ 253)
    (s : State) : ∃ t r, send i s = .next (t, r) := by
  by_cases hfits : i.wf = true ∧ (encode i).length ≤ s.cfg.cap
  · obtain ⟨hw, hc⟩ := hfits
    rw [send_fits hid h253 hw hc]
    exact exchange_returns (loadFrame_writeFrame id (encode i) hc)
  · obtain ⟨k, raised⟩ := exec_sent_raises hid hfits
    exact ⟨_, _, send_of_exec_raises hid h253 raised⟩

/-! ## The tick -/

@[simp] theorem conclude_ok {α : Type} (t : State) (a : α) (f : α → HostResult) :
    conclude (.next (t, .ok a)) f = .next { t with hostRes := f a } := rfl

@[simp] theorem conclude_error {α : Type} (t : State) (e : HostError) (f : α → HostResult) :
    conclude (.next (t, .error e)) f = .next { t with hostRes := .error e } := rfl

theorem processQueue_nil {s : State} (h : s.queue = []) :
    processQueue s = .next { s with hostRes := .done } := by
  rw [processQueue, h]

theorem processQueue_cons {s : State} {c : MoveCommand} {rest : List MoveCommand}
    (h : s.queue = c :: rest) :
    processQueue s =
      conclude (writePosition c.id c.target c.tail { s with queue := rest }) flushResult := by
  rw [processQueue, h]

/-- Settles O57: the write answers because `send` to a single actuator does, and `send` leaves the queue
as the pop left it. -/
theorem tickFlushesExactlyOneMove : Obligations.TickFlushesExactlyOneMove := by
  refine ⟨fun s => processQueue_nil, fun s c rest hq h253 => ?_⟩
  obtain ⟨t, r, flushed⟩ : ∃ t r,
      writePosition c.id c.target c.tail { s with queue := rest } = .next (t, r) :=
    send_returns rfl h253 _
  refine ⟨t, r, flushed, send_queue flushed, ?_⟩
  rw [processQueue_cons hq, flushed]
  cases r with
  | ok rep => rw [conclude_ok, flushResult]
  | error e => rw [conclude_error]

end Sys2Proof.Machine

/-! PROOFS. Each way a command can end overwrites RES, so an earlier outcome reaches nothing
(`60_exceptions.md` section 4). -/

namespace Sys2Proof.Machine

/-! ## The old RES is overwritten -/

@[simp] theorem raise_with_res (k : ErrKind) (s : State) (r : Res) :
    raise k { s with res := r } = raise k s := rfl

@[simp] theorem writeFrame_with_res (id : Byte) (f : List Byte) (s : State) (r : Res) :
    writeFrame id f { s with res := r } = writeFrame id f s := rfl

@[simp] theorem acceptReply_with_res (rep : Reply) (n : Nat) (s : State) (r : Res) :
    acceptReply rep n { s with res := r } = acceptReply rep n s := rfl

@[simp] theorem encFrame_with_res (id : Byte) (f : List Byte) (s : State) (r : Res) :
    encFrame id f { s with res := r } = encFrame id f s := by
  simp only [encFrame, raise_with_res, writeFrame_with_res]

/-! ## No command reads RES -/

/-- ENC compares the frame's length with CAP only, and each of its ends overwrites RES. -/
theorem exec_sent_with_res {i : Instr} {id : Byte} (h : servoId i = some id) (s : State) (r : Res) :
    exec i { s with res := r } = exec i s := by
  rw [exec_of_sent h, exec_of_sent h, encFrame_with_res, raise_with_res]

/-- R129: DEC reads CAP and BUF only, and each of its ends overwrites RES. -/
theorem exec_reply_with_res (n : Nat) (s : State) (r : Res) :
    exec (.reply n) { s with res := r } = exec (.reply n) s := by
  simp only [exec, execReply, raise_with_res, acceptReply_with_res]

/-- Settles O32: by the three forms of ENC as one, and DEC. -/
theorem earlierResultNeverMatters : Obligations.EarlierResultNeverMatters := by
  intro i s r
  cases i with
  | ping id => exact exec_sent_with_res rfl s r
  | read id addr rlen => exact exec_sent_with_res rfl s r
  | write id addr pay => exact exec_sent_with_res rfl s r
  | reply n => exact exec_reply_with_res n s r

end Sys2Proof.Machine

/-! PROOFS. The invariant at reset and over every move, and what else every step keeps: the parameters,
the wire, the written bytes (`10_state.md` sections 2, 5 and 7). -/

namespace Sys2Proof.Machine

/-! ## The parts of the invariant -/

/-- The invariant reads the block, the queue and the snapshots' ids only. -/
theorem State.Inv.of_sameBlock {s t : State} (h : s.Inv) (cfg : t.cfg = s.cfg) (buf : t.buf = s.buf)
    (res : t.res = s.res) (live : t.windowLive = s.windowLive) (queue : t.QueueBounded)
    (servos : t.ServosConfigured) : t.Inv where
  bufCanonical := buf ▸ h.bufCanonical
  bufInside := by rw [State.BufInside, buf, cfg]; exact h.bufInside
  resInRange := by rw [State.ResInRange, res, buf, cfg]; exact h.resInRange
  windowHoldsReply := by rw [State.WindowHoldsReply, live, res, buf]; exact h.windowHoldsReply
  queueBounded := queue
  servosConfigured := servos

/-- A write inside BUF lists no offset outside BUF. -/
theorem State.BufInside.memWrite {s : State} (h : s.BufInside) {off : Nat} {v : List Byte}
    (hin : off + v.length ≤ s.cfg.cap) : ∀ c ∈ memWrite s.buf off v, c.1 < s.cfg.cap := by
  intro c hc
  rcases mem_memWrite hc with ⟨-, written⟩ | old
  · omega
  · exact h c old

/-- The bytes RES speaks of keep a value when BUF is written. -/
theorem State.ResInRange.memWrite {s : State} (h : s.ResInRange) (off : Nat) (v : List Byte)
    (live : Bool) : { s with buf := memWrite s.buf off v, windowLive := live }.ResInRange := by
  unfold State.ResInRange at h ⊢
  dsimp only
  cases hres : s.res with
  | idle => trivial
  | err k => trivial
  | encOk len =>
    rw [hres] at h
    obtain ⟨min, max, cap, written⟩ := h
    exact ⟨min, max, cap, memRead_isSome_memWrite off v written⟩
  | decOk id status doff dlen =>
    rw [hres] at h
    obtain ⟨start, max, cap, written⟩ := h
    exact ⟨start, max, cap, memRead_isSome_memWrite off v written⟩

/-- The reply that RES reports lies inside BUF. -/
theorem State.ResInRange.reply_fits {s : State} (h : s.ResInRange) {id status : Byte}
    {doff dlen : Nat} (hres : s.res = .decOk id status doff dlen) : dlen + 6 ≤ s.cfg.cap := by
  rw [State.ResInRange, hres] at h
  obtain ⟨-, -, fits, -⟩ := h
  exact fits

/-- The reply window of `n` received bytes: what stands between their status and their checksum. -/
theorem memRead_window {m : Memory} {n : Nat} {r : List Byte} (hr : memRead m 0 n = some r)
    (h6 : 6 ≤ n) : memRead m 5 (n - 6) = some (slice r 5 (n - 1)) := by
  rw [show n - 6 = n - 1 - 5 by omega]
  exact memRead_slice hr (by omega) (by omega)

/-! ## Each operation keeps the invariant -/

theorem raise_inv {s : State} (h : s.Inv) (k : ErrKind) : (raise k s).Inv where
  bufCanonical := h.bufCanonical
  bufInside := h.bufInside
  resInRange := trivial
  windowHoldsReply := fun live => absurd live Bool.false_ne_true
  queueBounded := h.queueBounded
  servosConfigured := h.servosConfigured

theorem writeFrame_inv {s : State} (h : s.Inv) (id : Byte) {f : List Byte} (hmin : 6 ≤ f.length)
    (hmax : f.length ≤ 259) (hcap : f.length ≤ s.cfg.cap) : (writeFrame id f s).Inv where
  bufCanonical := memWrite_wf 0 f h.bufCanonical
  bufInside := h.bufInside.memWrite (by omega)
  resInRange :=
    ⟨hmin, hmax, hcap, by rw [writeFrame_buf, memRead_memWrite_self]; rfl⟩
  windowHoldsReply := fun live => absurd live Bool.false_ne_true
  queueBounded := h.queueBounded
  servosConfigured := h.servosConfigured

theorem acceptReply_inv {s : State} (h : s.Inv) {n : Nat} {r : List Byte} {rep : Reply}
    (hn : n ≤ s.cfg.cap) (hr : memRead s.buf 0 n = some r) (hd : decodeReply r = .ok rep) :
    (acceptReply rep n s).Inv := by
  have len : r.length = n := memRead_length hr
  obtain ⟨h6, h259, -⟩ := decodeReply_data_length hd
  have whole : memRead s.buf 0 (n - minReply + 6) = some r := by
    rw [show n - minReply + 6 = n by unfold minReply; omega, hr]
  exact {
    bufCanonical := h.bufCanonical
    bufInside := h.bufInside
    resInRange := ⟨rfl, by unfold minReply; omega,
      by rw [acceptReply_cfg]; unfold minReply; omega, by rw [acceptReply_buf, whole]; rfl⟩
    windowHoldsReply := fun _ => ⟨rep.servoId, rep.status, n - minReply, r, rep.data, rfl, whole, hd⟩
    queueBounded := h.queueBounded
    servosConfigured := h.servosConfigured }

theorem exec_inv {i : Instr} {s t : State} (h : s.Inv) (he : exec i s = .next t) : t.Inv := by
  rcases exec_cases he with ⟨-, -, rfl⟩ | ⟨-, -, -, rfl⟩ | ⟨sent, wf, fits, id, -, rfl⟩ |
    ⟨n, -, -, rfl⟩ | ⟨n, r, k, -, -, -, -, rfl⟩ | ⟨n, r, rep, -, hn, hr, hd, rfl⟩
  · exact raise_inv h _
  · exact raise_inv h _
  · obtain ⟨hmin, hmax⟩ := sent_length sent wf
    exact writeFrame_inv h id hmin hmax fits
  · exact raise_inv h _
  · exact raise_inv h _
  · exact acceptReply_inv h hn hr hd

theorem hostStore_inv {off : Nat} {v : List Byte} {s t : State} (h : s.Inv)
    (hs : hostStore off v s = .next t) : t.Inv := by
  obtain ⟨hin, rfl⟩ := hostStore_eq_next.mp hs
  exact {
    bufCanonical := memWrite_wf off v h.bufCanonical
    bufInside := h.bufInside.memWrite hin
    resInRange := h.resInRange.memWrite off v false
    windowHoldsReply := fun live => absurd live Bool.false_ne_true
    queueBounded := h.queueBounded
    servosConfigured := h.servosConfigured }

theorem Noted.inv {s t : State} (hn : Noted s t) (h : s.Inv) : t.Inv :=
  h.of_sameBlock hn.cfg hn.buf hn.res hn.windowLive
    (by rw [State.QueueBounded, hn.queue, hn.cfg]; exact h.queueBounded)
    (by rw [State.ServosConfigured, hn.servos, hn.cfg]; exact h.servosConfigured)

theorem Planned.queueBounded {s t : State} (hp : Planned s t) (h : s.QueueBounded) :
    t.QueueBounded := by
  obtain ⟨length, ids⟩ := h
  refine ⟨?_, fun c hc => (hp.queueIds c hc).elim (ids c) id⟩
  rw [hp.cfg]
  exact hp.queueLength.elim (·.trans length) id

theorem Planned.inv {s t : State} (hp : Planned s t) (h : s.Inv) : t.Inv :=
  h.of_sameBlock hp.cfg hp.buf hp.res hp.windowLive (hp.queueBounded h.queueBounded)
    (by rw [State.ServosConfigured, hp.servoIds, hp.cfg]; exact h.servosConfigured)

theorem resetBlock_inv {s : State} (h : s.Inv) : (resetBlock s).Inv where
  bufCanonical := rfl
  bufInside := fun _ hc => absurd hc List.not_mem_nil
  resInRange := trivial
  windowHoldsReply := fun live => absurd live Bool.false_ne_true
  queueBounded := h.queueBounded
  servosConfigured := h.servosConfigured

theorem Move.inv {s t : State} (hm : Move s t) (h : s.Inv) : t.Inv := by
  cases hm with
  | command i he => exact exec_inv h he
  | stored off v hs => exact hostStore_inv h hs
  | noted hn => exact hn.inv h
  | planned hp => exact hp.inv h

theorem Path.inv {s t : State} (hp : Path s t) : s.Inv → t.Inv :=
  hp.keeps (P := fun s t => s.Inv → t.Inv) (fun _ => id) (fun first second => second ∘ first) Move.inv

/-- Which host steps are left is nothing to the invariant. -/
theorem State.Inv.with_program {s : State} (h : s.Inv) (p : List HostStep) :
    { s with program := p }.Inv :=
  h.of_sameBlock rfl rfl rfl rfl h.queueBounded h.servosConfigured

/-- Settles O44: every move keeps the invariant, so every path does, and the reset of the block does. -/
theorem stepKeepsInvariant : Obligations.StepKeepsInvariant := by
  intro s t h he
  rcases step_cases he with ⟨rest, -, rfl⟩ | path
  · exact resetBlock_inv (h.with_program rest)
  · exact path.inv h

/-- Settles O43: nothing is written, no window is live, the queue is empty, and each configured id has
its snapshot. -/
theorem resetMeetsInvariant : Obligations.ResetMeetsInvariant := fun c => {
  bufCanonical := rfl
  bufInside := fun _ hc => absurd hc List.not_mem_nil
  resInRange := trivial
  windowHoldsReply := fun live => absurd live Bool.false_ne_true
  queueBounded := ⟨Nat.zero_le _, fun _ hc => absurd hc List.not_mem_nil⟩
  servosConfigured := by simp [State.ServosConfigured, State.resetWith, Function.comp_def] }

/-- Settles O36: the live window is BUF from offset 5 to before the last byte of the reply that the
invariant says is there, and a decoded reply's data is that slice. -/
theorem liveWindowYieldsReplyData : Obligations.LiveWindowYieldsReplyData := by
  intro s h live
  obtain ⟨id, status, dlen, r, data, hres, hread, hdecode⟩ := h.windowHoldsReply live
  have fits := h.resInRange.reply_fits hres
  have len : r.length = dlen + 6 := memRead_length hread
  obtain ⟨-, -, -, hrep⟩ := (decodeReply_eq_ok _ _).mp hdecode
  have hdata : data = slice r 5 (dlen + 6 - 1) := len ▸ congrArg Reply.data hrep
  have window : readWindow s = .next (s, data) :=
    readWindow_eq_next.mpr ⟨id, status, 5, dlen, hres, live,
      hostLoad_eq_next.mpr ⟨by omega, hdata ▸ memRead_window hread (by omega), rfl⟩⟩
  refine ⟨{ s with loaded := data }, id, status, dlen, r, ?_, hres, hread, hdecode⟩
  rw [runHostStep, window]
  rfl

/-! ## What else every step keeps -/

theorem Path.cfg_eq {s t : State} (h : Path s t) : t.cfg = s.cfg :=
  h.keeps (P := fun s t => t.cfg = s.cfg) (fun _ => rfl) (fun first second => second.trans first)
    Move.cfg_eq

/-- Settles O45: no move and no reset of the block changes a parameter. -/
theorem stepKeepsConfiguration : Obligations.StepKeepsConfiguration := by
  intro s t h
  rcases step_cases h with ⟨rest, -, rfl⟩ | path
  · rfl
  · exact path.cfg_eq

theorem SameHost.wireOut {s t : State} (h : SameHost s t) : t.wireOut = s.wireOut := by
  obtain ⟨-, -, -, wire, -⟩ := h
  exact wire

/-- A move only adds bytes to the wire. -/
theorem Move.wireOut_grows {s t : State} (h : Move s t) : s.wireOut <+: t.wireOut := by
  cases h with
  | command i he => rw [(exec_sameHost he).wireOut]
  | stored off v hs => rw [(hostStore_eq_next.mp hs).2]
  | noted hn =>
    obtain ⟨bs, wire⟩ := hn.wireOut
    exact ⟨bs, wire.symm⟩
  | planned hp => rw [hp.wireOut]

theorem Path.wireOut_grows {s t : State} (h : Path s t) : s.wireOut <+: t.wireOut :=
  h.keeps (P := fun s t => s.wireOut <+: t.wireOut) (fun _ => ⟨[], List.append_nil _⟩)
    List.IsPrefix.trans Move.wireOut_grows

/-- Settles O46: every move only adds to the wire, and a reset of the block leaves it. -/
theorem wireOnlyGrows : Obligations.WireOnlyGrows := by
  intro s t h
  rcases step_cases h with ⟨rest, -, rfl⟩ | path
  · exact ⟨[], (List.append_nil _).symm⟩
  · obtain ⟨bs, wire⟩ := path.wireOut_grows
    exact ⟨bs, wire.symm⟩

/-- A write never takes a byte's value away. -/
theorem readByte_memWrite_ne_none {m : Memory} {a : Nat} (off : Nat) (v : List Byte)
    (h : readByte m a ≠ none) : readByte (memWrite m off v) a ≠ none := by
  rw [readByte_memWrite]
  split
  · rw [Ne, List.getElem?_eq_none_iff]
    omega
  · exact h

/-- What a command leaves in BUF: the bytes that were there, or the frame it wrote over them. -/
theorem exec_buf {i : Instr} {s t : State} (h : exec i s = .next t) :
    t.buf = s.buf ∨ t.buf = memWrite s.buf 0 (encode i) := by
  rcases exec_cases h with ⟨-, -, rfl⟩ | ⟨-, -, -, rfl⟩ | ⟨-, -, -, id, -, rfl⟩ | ⟨n, -, -, rfl⟩ |
    ⟨n, r, k, -, -, -, -, rfl⟩ | ⟨n, r, rep, -, -, -, -, rfl⟩
  · exact .inl rfl
  · exact .inl rfl
  · exact .inr rfl
  · exact .inl rfl
  · exact .inl rfl
  · exact .inl rfl

theorem Move.readByte_ne_none {s t : State} (hm : Move s t) (a : Nat) (h : readByte s.buf a ≠ none) :
    readByte t.buf a ≠ none := by
  cases hm with
  | command i he =>
    rcases exec_buf he with buf | buf <;> rw [buf]
    · exact h
    · exact readByte_memWrite_ne_none 0 _ h
  | stored off v hs => rw [(hostStore_eq_next.mp hs).2]; exact readByte_memWrite_ne_none off v h
  | noted hn => rwa [hn.buf]
  | planned hp => rwa [hp.buf]

theorem Path.readByte_ne_none {s t : State} (hp : Path s t) :
    ∀ a, readByte s.buf a ≠ none → readByte t.buf a ≠ none :=
  hp.keeps (P := fun s t => ∀ a, readByte s.buf a ≠ none → readByte t.buf a ≠ none) (fun _ _ => id)
    (fun first second a => second a ∘ first a) Move.readByte_ne_none

/-- Settles O47: every move keeps written bytes written, and a step that is no reset is a path of moves. -/
theorem writtenBytesKeepAValue : Obligations.WrittenBytesKeepAValue := by
  intro s t a noReset h written
  rcases step_cases h with ⟨rest, program, -⟩ | path
  · exact absurd (by rw [program]; rfl) noReset
  · exact path.readByte_ne_none a written

end Sys2Proof.Machine

/-! PROOFS. The laws of CSUM in 8-bit arithmetic (`40_checksum.md` sections 1 and 2). -/

namespace Sys2Proof.Machine

/-- Two sequences have the same checksum exactly when their 8-bit sums are the same. -/
theorem csum_eq_csum_iff {s t : List Byte} : csum s = csum t ↔ s.sum = t.sum := by
  rw [csum_eq_not_sum, csum_eq_not_sum, BitVec.not_inj]

@[simp] theorem not_csum (s : List Byte) : ~~~ csum s = s.sum := by
  rw [csum_eq_not_sum, BitVec.not_not]

/-- Settles O2: the loop adds up the 8-bit sum, whose complement CSUM is. -/
theorem byteSerialFormComputesChecksum : Obligations.ByteSerialFormComputesChecksum := by
  intro s
  rw [csumSerial, csumLoop_eq, ofNat_byteSum, zero_add, csum_eq_not_sum]

/-- The verification identity of `40_checksum.md` section 2, over the model's own sum. -/
theorem eq_csum_iff (s : List Byte) (c : Byte) :
    c = csum s ↔ (byteSum s + c.toNat) % 256 = 255 := by
  have := c.isLt
  rw [← BitVec.toNat_inj, csum_toNat]
  omega

/-- Settles O3: the checksum is 255 less the sum mod 256, and `eq_csum_iff` is arithmetic on that. -/
theorem checksumVerificationIdentity : Obligations.ChecksumVerificationIdentity := by
  intro s c
  rw [eq_csum_iff, byteSum_eq_sum]

theorem csum_perm {s t : List Byte} (h : s.Perm t) : csum s = csum t :=
  csum_eq_csum_iff.mpr h.sum_eq

theorem csum_append (a b : List Byte) : csum (a ++ b) = ~~~(~~~ csum a + ~~~ csum b) := by
  rw [not_csum, not_csum, csum_eq_not_sum, List.sum_append]

theorem csum_insert_zero (a b : List Byte) : csum (a ++ 0 :: b) = csum (a ++ b) := by
  rw [csum_eq_csum_iff, List.sum_append, List.sum_cons, List.sum_append, zero_add]

/-- The complement of a byte, alone, has that byte as its checksum. -/
theorem csum_singleton_not (b : Byte) : csum [~~~ b] = b := by
  rw [csum_eq_not_sum, List.sum_singleton, BitVec.not_not]

/-- Settles O4: the two extreme results by the verification identity, the others in 8-bit arithmetic. -/
theorem checksumArithmeticLaws : Obligations.ChecksumArithmeticLaws := by
  refine ⟨rfl, fun s => ?zero, fun s => ?ones, fun b => ⟨_, csum_singleton_not b⟩,
    fun s t => csum_perm, csum_append, csum_insert_zero⟩
  case zero => rw [eq_comm, eq_csum_iff, byteSum_eq_sum]; rfl
  case ones =>
    rw [eq_comm, eq_csum_iff, byteSum_eq_sum, show (0xFF : Byte).toNat = 255 from rfl]
    omega

/-- Settles O5: equal checksums are equal sums, from which the other bytes cancel. -/
theorem checksumSeesOneChangedByte : Obligations.ChecksumSeesOneChangedByte := by
  intro a c b b' hne heq
  rw [csum_eq_csum_iff, List.sum_append, List.sum_append, List.sum_cons, List.sum_cons] at heq
  exact hne (add_right_cancel (add_left_cancel heq))

end Sys2Proof.Machine

/-! PROOFS. The decoder and the encoder are inverse on well-formed instructions, and what an encoded
frame holds (`30_encoding.md`, `41_encode.md` section 4). -/

namespace Sys2Proof.Machine

/-! ## Decoding each kind of frame -/

theorem decodeSent_cons (id len code : Byte) (rest : List Byte) :
    decodeSent (0xFF :: 0xFF :: id :: len :: code :: rest) = decodeOperands id len code rest := rfl

theorem decodeOperands_ping (id c : Byte) (tail : List Byte) :
    decodeOperands id 0x02 codePing (c :: tail) = .ok (.ping id, tail) := rfl

theorem decodeOperands_read (id addr rlen c : Byte) (tail : List Byte) :
    decodeOperands id 0x04 codeRead (addr :: rlen :: c :: tail) = .ok (.read id addr rlen, tail) := rfl

/-- The length byte says where the payload ends. -/
theorem decodeOperands_write {len : Byte} {pay : List Byte} (hlen : len.toNat = 3 + pay.length)
    (id addr c : Byte) (tail : List Byte) :
    decodeOperands id len codeWrite (addr :: (pay ++ c :: tail)) = .ok (.write id addr pay, tail) := by
  have notPing : codeWrite ≠ codePing := by decide
  have notRead : codeWrite ≠ codeRead := by decide
  have room : ¬ (pay ++ c :: tail).length < len.toNat - 3 + 1 := by
    rw [List.length_append, List.length_cons]
    omega
  rw [decodeOperands, if_neg notPing, if_neg notRead, if_pos rfl, if_neg (by omega)]
  rw [if_neg room, show len.toNat - 3 = pay.length by omega]
  simp

/-- A reply's length byte counts the bytes after it. -/
theorem decodeReceived_cons {len : Byte} {rest : List Byte} (hmin : 2 ≤ len.toNat)
    (hlen : rest.length = len.toNat) (id : Byte) (tail : List Byte) :
    decodeReceived (0xFF :: 0xFF :: id :: len :: (rest ++ tail)) =
      .ok (.reply (len.toNat + 4), tail) := by
  have room : ¬ (rest ++ tail).length < len.toNat := by
    rw [List.length_append]
    omega
  rw [decodeReceived, if_pos ⟨rfl, rfl⟩, if_neg (Nat.not_lt.mpr hmin), if_neg room, ← hlen,
    List.drop_left]

theorem decode_encode_write (id addr : Byte) {pay : List Byte} (h : pay.length ≤ 252)
    (tail : List Byte) :
    decodeSent (encode (.write id addr pay) ++ tail) = .ok (.write id addr pay, tail) := by
  have hlen : (lowByte (3 + pay.length)).toNat = 3 + pay.length := lowByte_toNat (by omega)
  rw [← decodeOperands_write hlen id addr (csum (writeBody id addr pay)) tail, ← decodeSent_cons]
  simp [encode, framed, writeBody]

theorem decode_encode_reply {n : Nat} (hmin : 6 ≤ n) (hmax : n ≤ 259) (tail : List Byte) :
    decodeReceived (encode (.reply n) ++ tail) = .ok (.reply n, tail) := by
  let data : List Byte := List.replicate (n - 6) 0
  have hlen : (lowByte (data.length + 2)).toNat = n - 4 := by
    rw [lowByte_toNat] <;> simp only [data, List.length_replicate] <;> omega
  have hrest : (0 :: (data ++ [csum (replyBody 0 0 data)])).length = n - 4 := by
    simp [data]
    omega
  have decoded := decodeReceived_cons (by omega) (hrest.trans hlen.symm) 0 tail
  rw [hlen, Nat.sub_add_cancel (by omega)] at decoded
  rw [← decoded]
  simp [encode, replyFrame, framed, replyBody, data]

/-- Settles O7: a frame is its instruction's operands behind the header, and the length byte of a Write
or a reply, exact within the encoding's bounds, says where the tail begins. -/
theorem decodeOfEncodeIsIdentity : Obligations.DecodeOfEncodeIsIdentity := by
  intro i tail hw
  cases i with
  | ping id => exact decodeOperands_ping id (csum (pingBody id)) tail
  | read id addr rlen => exact decodeOperands_read id addr rlen (csum (readBody id addr rlen)) tail
  | write id addr pay => exact decode_encode_write id addr (write_wf_iff.mp hw) tail
  | reply n =>
    obtain ⟨hmin, hmax⟩ := reply_wf_iff.mp hw
    exact decode_encode_reply hmin hmax tail

/-- Settles O9: the frame decodes to both instructions. -/
theorem differentInstructionsDifferentFrames : Obligations.DifferentInstructionsDifferentFrames := by
  intro i j hi hj wi wj heq
  have di := decodeOfEncodeIsIdentity i [] wi
  have dj := decodeOfEncodeIsIdentity j [] wj
  rw [hi, heq, ← hj, dj] at di
  simp only [Except.ok.injEq, Prod.mk.injEq, and_true] at di
  exact di.symm

/-- Settles O6: each word by evaluation. -/
theorem wordsOfTheSpecDecode : Obligations.WordsOfTheSpecDecode := by
  refine ⟨?ping, ?read, ?write, ?reply, ?unknown⟩ <;> decide

/-! ## What decodes -/

/-- Only bytes behind the header, the id, the length byte and the code decode. -/
theorem decodeSent_eq_ok {r tail : List Byte} {i : Instr} (h : decodeSent r = .ok (i, tail)) :
    ∃ id len code rest, r = 0xFF :: 0xFF :: id :: len :: code :: rest ∧
      decodeOperands id len code rest = .ok (i, tail) := by
  unfold decodeSent at h
  split at h
  · rename_i h0 h1 id len code rest
    split at h
    · rename_i header
      obtain ⟨rfl, rfl⟩ := header
      exact ⟨id, len, code, rest, rfl, h⟩
    · simp at h
  · simp at h

/-- What operands decode to, one case per kind of frame. -/
theorem decodeOperands_eq_ok {id len code : Byte} {rest tail : List Byte} {i : Instr}
    (h : decodeOperands id len code rest = .ok (i, tail)) :
    (code = codePing ∧ len = 0x02 ∧ i = .ping id ∧ ∃ c, rest = c :: tail) ∨
    (code = codeRead ∧ len = 0x04 ∧ ∃ addr rlen c, i = .read id addr rlen ∧
      rest = addr :: rlen :: c :: tail) ∨
    (code = codeWrite ∧ ∃ addr pay c, len.toNat = 3 + pay.length ∧ i = .write id addr pay ∧
      rest = addr :: (pay ++ c :: tail)) := by
  unfold decodeOperands at h
  split at h
  · rename_i hcode
    split at h
    · rename_i hlen
      split at h
      · rename_i c tail'
        simp only [Except.ok.injEq, Prod.mk.injEq] at h
        obtain ⟨rfl, rfl⟩ := h
        exact .inl ⟨hcode, hlen, rfl, c, rfl⟩
      · simp at h
    · simp at h
  · split at h
    · rename_i hcode
      split at h
      · rename_i hlen
        split at h
        · rename_i addr rlen c tail'
          simp only [Except.ok.injEq, Prod.mk.injEq] at h
          obtain ⟨rfl, rfl⟩ := h
          exact .inr (.inl ⟨hcode, hlen, addr, rlen, c, rfl, rfl⟩)
        · simp at h
      · simp at h
    · split at h
      · rename_i hcode
        split at h
        · simp at h
        · rename_i hmin
          split at h
          · rename_i addr more
            split at h
            · simp at h
            · rename_i room
              simp only [Except.ok.injEq, Prod.mk.injEq] at h
              obtain ⟨rfl, rfl⟩ := h
              have inside : len.toNat - 3 < more.length := by omega
              refine .inr (.inr ⟨hcode, addr, _, more[len.toNat - 3], ?_, rfl, ?_⟩)
              · rw [List.length_take]
                omega
              · rw [List.getElem_cons_drop, List.take_append_drop]
          · simp at h
      · simp at h

theorem framed_dropLast (body : List Byte) : (framed body).dropLast = 0xFF :: 0xFF :: body := by
  rw [framed, List.dropLast_concat]
  rfl

/-- A byte with value `v` is the low byte of `v`. -/
theorem lowByte_of_toNat {b : Byte} {v : Nat} (h : b.toNat = v) : lowByte v = b := by
  rw [lowByte, ← h, BitVec.ofNat_toNat, BitVec.setWidth_eq]

/-- Settles O8: the three kinds of frame that decode, each with its one byte that is not compared. -/
theorem decodedBytesAreTheFrame : Obligations.DecodedBytesAreTheFrame := by
  intro r i tail h
  obtain ⟨id, len, code, rest, rfl, hops⟩ := decodeSent_eq_ok h
  rcases decodeOperands_eq_ok hops with ⟨rfl, rfl, rfl, c, rfl⟩ |
    ⟨rfl, rfl, addr, rlen, c, rfl, rfl⟩ | ⟨rfl, addr, pay, c, hlen, rfl, rfl⟩
  · exact ⟨rfl, rfl, c, rfl⟩
  · exact ⟨rfl, rfl, c, rfl⟩
  · have := len.isLt
    refine ⟨rfl, write_wf_iff.mpr (by omega), c, ?_⟩
    rw [encode, framed_dropLast, writeBody, lowByte_of_toNat hlen]
    simp

/-! ## The rows of the table -/

theorem classify_ping (id : Byte) : classify (encode (.ping id)) = some .ping := by
  simp [classify, opcodeTable, OpcodeRow.fits, encode, framed, pingBody]

theorem classify_read (id addr rlen : Byte) : classify (encode (.read id addr rlen)) = some .read := by
  simp [classify, opcodeTable, OpcodeRow.fits, encode, framed, readBody]

theorem classify_write (id addr : Byte) (pay : List Byte) :
    classify (encode (.write id addr pay)) = some .write := by
  simp [classify, opcodeTable, OpcodeRow.fits, encode_write]

/-- A row that compares the code byte in full fits only bytes with its own code. -/
theorem code_of_fits {row : OpcodeRow} {r : List Byte} (hmask : row.mask[4]? = some 0xFF)
    (h : row.fits r = true) : r[4]? = row.pattern[4]? := by
  have ones_and (b : Byte) : b &&& 0xFF = b := BitVec.and_allOnes
  rw [← eq_of_beq h, List.getElem?_zipWith, hmask]
  cases hr : (r.take 5)[4]? <;> simp_all

theorem instructionRow_mask_code :
    ∀ row ∈ opcodeTable.take 3, row.mask[4]? = some 0xFF := by decide

theorem instructionRow_eq_of_code : ∀ row ∈ opcodeTable.take 3, ∀ row' ∈ opcodeTable.take 3,
    row.pattern[4]? = row'.pattern[4]? → row = row' := by decide

/-- Settles O10: each frame against the table's rows, and no two instruction rows have one code byte. -/
theorem instructionRowsDoNotOverlap : Obligations.InstructionRowsDoNotOverlap := by
  refine ⟨classify_ping, classify_read, fun id addr pay _ => classify_write id addr pay, ?_⟩
  intro row row' r hrow hrow' fits fits'
  have code := code_of_fits (instructionRow_mask_code row hrow) fits
  have code' := code_of_fits (instructionRow_mask_code row' hrow') fits'
  exact instructionRow_eq_of_code row hrow row' hrow' (code.symm.trans code')

/-! ## What a frame holds -/

/-- Every instruction frame is a body closed by the header and the checksum (R101). -/
theorem encode_of_sent {i : Instr} (h : direction i = .sent) : ∃ body, encode i = framed body := by
  cases i with
  | ping id => exact ⟨pingBody id, rfl⟩
  | read id addr rlen => exact ⟨readBody id addr rlen, rfl⟩
  | write id addr pay => exact ⟨writeBody id addr pay, rfl⟩
  | reply n => simp [direction] at h

/-- The checksum byte of a closed frame covers the bytes from offset 2. -/
theorem framed_checksum (body : List Byte) :
    byteAt (framed body) ((framed body).length - 1) =
      csum (slice (framed body) 2 ((framed body).length - 1)) := by
  obtain ⟨covered, last⟩ := slice_closed (show framed body = _ from rfl)
  rw [covered, last]

theorem framed_slice_two (body : List Byte) :
    slice (framed body) 2 (framed body).length = body ++ [csum body] := by
  simp [slice, framed]

/-- The bytes a checksum covers, with the checksum, add up to 255 mod 256. -/
theorem sum_with_csum (s : List Byte) : ((s ++ [csum s]).map BitVec.toNat).sum % 256 = 255 := by
  have verified := (eq_csum_iff s (csum s)).mp rfl
  rw [byteSum_eq_sum] at verified
  rw [List.map_append, List.sum_append, List.map_singleton, List.sum_singleton, verified]

theorem sent_header {i : Instr} (h : direction i = .sent) :
    byteAt (encode i) 0 = 0xFF ∧ byteAt (encode i) 1 = 0xFF := by
  obtain ⟨body, closed⟩ := encode_of_sent h
  rw [closed]
  exact ⟨rfl, rfl⟩

theorem sent_id {i : Instr} (h : direction i = .sent) : servoId i = some (byteAt (encode i) 2) := by
  cases i with
  | ping id => rfl
  | read id addr rlen => rfl
  | write id addr pay => rfl
  | reply n => simp [direction] at h

/-- The length byte of an instruction frame counts the bytes after it. -/
theorem sent_lengthByte {i : Instr} (h : direction i = .sent) (hw : i.wf = true) :
    (byteAt (encode i) 3).toNat + 4 = (encode i).length := by
  cases i with
  | ping id => rfl
  | read id addr rlen => rfl
  | write id addr pay =>
    have hpay := write_wf_iff.mp hw
    have lengthByte : byteAt (encode (.write id addr pay)) 3 = lowByte (3 + pay.length) := rfl
    rw [lengthByte, encode_length_write, lowByte_toNat (by omega)]
    omega
  | reply n => simp [direction] at h

/-- Settles O11: the header, id and length byte of each kind of frame, and the checksum of a closed one. -/
theorem encodedFrameIsConsistent : Obligations.EncodedFrameIsConsistent := by
  intro i h hw
  obtain ⟨header0, header1⟩ := sent_header h
  obtain ⟨hmin, hmax⟩ := sent_length h hw
  obtain ⟨body, closed⟩ := encode_of_sent h
  refine ⟨header0, header1, sent_id h, sent_lengthByte h hw, ?checksum, ?sum, hmin, hmax⟩
  case checksum => rw [closed, framed_checksum]
  case sum => rw [closed, framed_slice_two, sum_with_csum]

end Sys2Proof.Machine

/-! PROOFS. ENC: what each form does, what it leaves alone and what it reads (`41_encode.md`). -/

namespace Sys2Proof.Machine

/-! ## The two errors of ENC -/

theorem exec_oversize {i : Instr} (h : direction i = .sent) (hw : i.wf = false) (s : State) :
    exec i s = .next (raise .oversize s) := by
  obtain ⟨id, hid⟩ := servoId_of_sent h
  rw [exec_of_sent hid, hw]
  rfl

theorem exec_bufferTooSmall {i : Instr} {s : State} (h : direction i = .sent) (hw : i.wf = true)
    (hc : s.cfg.cap < (encode i).length) : exec i s = .next (raise .bufferTooSmall s) := by
  obtain ⟨id, hid⟩ := servoId_of_sent h
  rw [exec_of_sent hid, if_pos hw, encFrame, if_pos hc]

theorem write_oversize {id addr : Byte} {pay : List Byte} (h : 252 < pay.length) :
    (Instr.write id addr pay).wf = false := by
  rw [Bool.eq_false_iff, Ne, write_wf_iff]
  omega

/-- Settles O16: a Write of more than 252 bytes has no frame, and ENC says so before it looks at CAP. -/
theorem longWriteIsOversize : Obligations.LongWriteIsOversize :=
  fun _ _ _ s h => exec_oversize rfl (write_oversize h) s

/-- Settles O15: each form with the length of its frame. -/
theorem encWithoutRoomIsBufferTooSmall : Obligations.EncWithoutRoomIsBufferTooSmall := by
  refine ⟨fun id s hc => ?ping, fun id addr rlen s hc => ?read, fun id addr pay s hpay hc => ?write⟩
  case ping => exact exec_bufferTooSmall rfl rfl hc
  case read => exact exec_bufferTooSmall rfl rfl hc
  case write =>
    exact exec_bufferTooSmall rfl (write_wf_iff.mpr hpay) (by rwa [encode_length_write])

/-! ## ENC that succeeds -/

/-- R68's checksum in R102's form. -/
theorem csum_pingBody (id : Byte) : csum [id, 0x02, 0x01] = ~~~(id + 3) := by
  have sum_eq : [id, 0x02, 0x01].sum = id + 3 := by
    simp only [List.sum_cons, List.sum_nil]
    ring
  rw [csum_eq_not_sum, sum_eq]

/-- Settles O12: the frame of a Ping is R68's six bytes, and ENC writes the frame. -/
theorem pingEncodesSixBytes : Obligations.PingEncodesSixBytes := by
  intro id s hcap
  obtain ⟨t, hexec, hres, hbuf⟩ := exec_sent_writes_frame (i := .ping id) (s := s) rfl rfl hcap
  refine ⟨t, hexec, hres, ?_, csum_pingBody id⟩
  rw [← csum_pingBody]
  exact hbuf

/-- An ENC that ends with EncOk wrote its frame. -/
theorem exec_encOk {i : Instr} {s t : State} {len : Nat} (h : direction i = .sent)
    (he : exec i s = .next t) (hres : t.res = .encOk len) :
    ∃ id, servoId i = some id ∧ i.wf = true ∧ (encode i).length ≤ s.cfg.cap ∧
      len = (encode i).length ∧ t = writeFrame id (encode i) s := by
  obtain ⟨id, hid, ⟨-, rfl⟩ | ⟨-, -, rfl⟩ | ⟨hw, hc, rfl⟩⟩ := exec_sent_cases h he
  · simp at hres
  · simp at hres
  · exact ⟨id, hid, hw, hc, (Res.encOk.inj hres).symm, rfl⟩

theorem readByte_writeFrame_after (id : Byte) {f : List Byte} (s : State) {a : Nat}
    (h : f.length ≤ a) : readByte (writeFrame id f s).buf a = readByte s.buf a := by
  rw [writeFrame_buf, readByte_memWrite, if_neg (by omega)]

theorem readByte_writeFrame_inside (id : Byte) {f : List Byte} (s : State) {a : Nat}
    (h : a < f.length) : readByte (writeFrame id f s).buf a = f[a]? := by
  rw [writeFrame_buf, readByte_memWrite, if_pos (by omega), Nat.sub_zero]

/-- Settles O17: an ENC that raises leaves BUF and the run's mark, one that succeeds writes the frame at
offset 0. -/
theorem encLeavesTheRestAlone : Obligations.EncLeavesTheRestAlone := by
  intro i s t h he
  refine ⟨exec_sameHost he, ?_⟩
  obtain ⟨id, hid, ⟨-, rfl⟩ | ⟨-, -, rfl⟩ | ⟨-, -, rfl⟩⟩ := exec_sent_cases h he
  · exact ⟨fun _ _ => rfl, fun _ _ => ⟨rfl, fun _ => rfl⟩, fun _ _ hres => by simp at hres⟩
  · exact ⟨fun _ _ => rfl, fun _ _ => ⟨rfl, fun _ => rfl⟩, fun _ _ hres => by simp at hres⟩
  · refine ⟨fun _ => readByte_writeFrame_after id s, fun _ hres => by simp at hres, ?_⟩
    intro len id' _ hid'
    obtain rfl : id = id' := Option.some.inj (hid.symm.trans hid')
    rfl

/-- Settles O18: the frame was written at offset 0 and fits in BUF. -/
theorem encodedFrameLoadsBack : Obligations.EncodedFrameLoadsBack := by
  intro i s t len h he hres
  obtain ⟨id, -, -, hc, rfl, rfl⟩ := exec_encOk h he hres
  refine ⟨rfl, hostLoad_eq_next.mpr ⟨?_, memRead_memWrite_self _ _ _, rfl⟩⟩
  rw [Nat.zero_add]
  exact hc

/-- Settles O19: which of its three ends ENC takes depends on the instruction and CAP, and the bytes it
stores are the frame's. -/
theorem encReadsOperandsOnly : Obligations.EncReadsOperandsOnly := by
  intro i s s' t t' h cap he he'
  obtain ⟨id, hid, ⟨hw, rfl⟩ | ⟨hw, hc, rfl⟩ | ⟨hw, hc, rfl⟩⟩ := exec_sent_cases h he
  · obtain rfl := Host.Outcome.next.inj ((exec_oversize h hw s').symm.trans he')
    exact ⟨rfl, fun len hres => by simp at hres⟩
  · obtain rfl := Host.Outcome.next.inj ((exec_bufferTooSmall h hw (cap ▸ hc)).symm.trans he')
    exact ⟨rfl, fun len hres => by simp at hres⟩
  · obtain rfl := Host.Outcome.next.inj ((exec_sent_fits hid hw (cap ▸ hc)).symm.trans he')
    refine ⟨rfl, fun len hres a ha => ?_⟩
    obtain rfl : (encode i).length = len := Res.encOk.inj hres
    rw [readByte_writeFrame_inside id s ha, readByte_writeFrame_inside id s' ha]

end Sys2Proof.Machine

/-! PROOFS. DEC, and what holds of every command: when each error and the one fault occur, what a command
leaves alone, and that a second time changes nothing (`42_decode.md`, `60_exceptions.md`). -/

namespace Sys2Proof.Machine

/-! ## When `Decode` answers which error -/

theorem decodeReply_eq_invalidHeader (r : List Byte) :
    decodeReply r = .error .invalidHeader ↔ headerOk r = false := by
  rcases decodeReply_cases r with ⟨h, hd⟩ | ⟨h, -, hd⟩ | ⟨h, -, -, hd⟩ | ⟨h, -, -, hd⟩ <;>
    simp [h, hd]

theorem decodeReply_eq_lengthError (r : List Byte) :
    decodeReply r = .error .lengthError ↔ headerOk r = true ∧ lengthOk r = false := by
  rcases decodeReply_cases r with ⟨h, hd⟩ | ⟨h, h', hd⟩ | ⟨-, h', -, hd⟩ | ⟨-, h', -, hd⟩ <;>
    simp [*]

theorem decodeReply_eq_checksumMismatch (r : List Byte) :
    decodeReply r = .error .checksumMismatch ↔
      headerOk r = true ∧ lengthOk r = true ∧ checksumOk r = false := by
  rcases decodeReply_cases r with ⟨h, hd⟩ | ⟨-, h, hd⟩ | ⟨h, h', h'', hd⟩ | ⟨-, -, h, hd⟩ <;>
    simp [*]

/-- `Decode` answers none of ENC's errors. -/
theorem decodeReply_ne_encError (r : List Byte) :
    decodeReply r ≠ .error .oversize ∧ decodeReply r ≠ .error .bufferTooSmall := by
  rcases decodeReply_cases r with ⟨-, hd⟩ | ⟨-, -, hd⟩ | ⟨-, -, -, hd⟩ | ⟨-, -, -, hd⟩ <;> simp [hd]

theorem exec_reply_aboveCap {n : Nat} {s : State} (h : s.cfg.cap < n) :
    exec (.reply n) s = .next (raise .lengthError s) := by
  rw [exec, execReply, if_pos h]

theorem exec_reply_unwritten {n : Nat} {s : State} (hn : n ≤ s.cfg.cap)
    (hr : memRead s.buf 0 n = none) : exec (.reply n) s = .fault .noValue := by
  rw [exec, execReply, if_neg (Nat.not_lt.mpr hn), hr]

theorem exec_reply_rejects {n : Nat} {s : State} {r : List Byte} {k : ErrKind} (hn : n ≤ s.cfg.cap)
    (hr : memRead s.buf 0 n = some r) (hd : decodeReply r = .error k) :
    exec (.reply n) s = .next (raise k s) := by
  rw [exec_reply_of_read hn hr, hd]

theorem exec_reply_accepts {n : Nat} {s : State} {r : List Byte} {rep : Reply} (hn : n ≤ s.cfg.cap)
    (hr : memRead s.buf 0 n = some r) (hd : decodeReply r = .ok rep) :
    exec (.reply n) s = .next (acceptReply rep n s) := by
  rw [exec_reply_of_read hn hr, hd]

/-! ## When a command ends with which error -/

/-- The conditions under which a command ends with `Err(k)`. -/
def Raises (k : ErrKind) (i : Instr) (s : State) : Prop :=
  (direction i = .sent ∧ i.wf = false ∧ k = .oversize) ∨
  (direction i = .sent ∧ i.wf = true ∧ s.cfg.cap < (encode i).length ∧ k = .bufferTooSmall) ∨
  (∃ n, i = .reply n ∧ s.cfg.cap < n ∧ k = .lengthError) ∨
  (∃ n r, i = .reply n ∧ n ≤ s.cfg.cap ∧ memRead s.buf 0 n = some r ∧ decodeReply r = .error k)

theorem exec_raises_iff (k : ErrKind) (i : Instr) (s : State) :
    exec i s = .next (raise k s) ↔ Raises k i s := by
  constructor
  · intro h
    rcases exec_cases h with ⟨sent, hw, ht⟩ | ⟨sent, hw, hc, ht⟩ | ⟨-, -, -, id, -, ht⟩ |
      ⟨n, hi, hc, ht⟩ | ⟨n, r, k', hi, hc, hr, hd, ht⟩ | ⟨n, r, rep, -, -, -, -, ht⟩ <;>
      have res := congrArg State.res ht <;> simp at res
    · exact .inl ⟨sent, hw, res⟩
    · exact .inr (.inl ⟨sent, hw, hc, res⟩)
    · exact .inr (.inr (.inl ⟨n, hi, hc, res⟩))
    · exact .inr (.inr (.inr ⟨n, r, hi, hc, hr, res ▸ hd⟩))
  · rintro (⟨sent, hw, rfl⟩ | ⟨sent, hw, hc, rfl⟩ | ⟨n, rfl, hc, rfl⟩ | ⟨n, r, rfl, hc, hr, hd⟩)
    · exact exec_oversize sent hw s
    · exact exec_bufferTooSmall sent hw hc
    · exact exec_reply_aboveCap hc
    · exact exec_reply_rejects hc hr hd

/-- A command that ends with an error raised it: nothing but RES and the window's mark changed. -/
theorem exec_err {i : Instr} {s t : State} {k : ErrKind} (h : exec i s = .next t)
    (hres : t.res = .err k) : t = raise k s := by
  rcases exec_cases h with ⟨-, -, rfl⟩ | ⟨-, -, -, rfl⟩ | ⟨-, -, -, id, -, rfl⟩ | ⟨n, -, -, rfl⟩ |
    ⟨n, r, k', -, -, -, -, rfl⟩ | ⟨n, r, rep, -, -, -, -, rfl⟩ <;> simp at hres <;> rw [hres]

/-- Settles O31: a command that ends with an error ended by raising it. -/
theorem failedCommandChangesResultOnly : Obligations.FailedCommandChangesResultOnly :=
  fun _ _ _ _ => exec_err

theorem exec_err_iff (k : ErrKind) (i : Instr) (s : State) :
    (∃ t, exec i s = .next t ∧ t.res = .err k) ↔ Raises k i s := by
  rw [← exec_raises_iff]
  constructor
  · rintro ⟨t, he, hres⟩
    rw [he, exec_err he hres]
  · exact fun h => ⟨_, h, rfl⟩

theorem headerOk_eq_false {r : List Byte} {n : Nat} (hl : r.length = n) :
    headerOk r = false ↔ n < 2 ∨ byteAt r 0 ≠ 0xFF ∨ byteAt r 1 ≠ 0xFF := by
  rw [Bool.eq_false_iff, Ne, headerOk_iff, hl, not_and_or, not_and_or, not_le]

theorem lengthOk_eq_false {r : List Byte} {n : Nat} (hl : r.length = n) :
    lengthOk r = false ↔ n < 6 ∨ (byteAt r 3).toNat + 4 ≠ n := by
  rw [Bool.eq_false_iff, Ne, lengthOk_iff, hl]
  omega

theorem checksumOk_eq_false {r : List Byte} {n : Nat} (hl : r.length = n) :
    checksumOk r = false ↔ csum (slice r 2 (n - 1)) ≠ byteAt r (n - 1) := by
  rw [Bool.eq_false_iff, Ne, checksumOk_iff, hl]

/-- Settles O21: of the errors a command can end with, only `Decode` of read bytes answers InvalidHeader. -/
theorem invalidHeaderExactlyWhen : Obligations.InvalidHeaderExactlyWhen := by
  intro i s
  rw [exec_err_iff, Raises]
  constructor
  · rintro (⟨-, -, hk⟩ | ⟨-, -, -, hk⟩ | ⟨-, -, -, hk⟩ | ⟨n, r, hi, hc, hr, hd⟩)
    · simp at hk
    · simp at hk
    · simp at hk
    · exact ⟨n, r, hi, hc, hr,
        (headerOk_eq_false (memRead_length hr)).mp ((decodeReply_eq_invalidHeader r).mp hd)⟩
  · rintro ⟨n, r, hi, hc, hr, bad⟩
    exact .inr (.inr (.inr ⟨n, r, hi, hc, hr,
      (decodeReply_eq_invalidHeader r).mpr ((headerOk_eq_false (memRead_length hr)).mpr bad)⟩))

/-- Settles O22: LengthError comes of a count above CAP or of `Decode`'s second check. -/
theorem lengthErrorExactlyWhen : Obligations.LengthErrorExactlyWhen := by
  intro i s
  rw [exec_err_iff, Raises]
  constructor
  · rintro (⟨-, -, hk⟩ | ⟨-, -, -, hk⟩ | ⟨n, hi, hc, -⟩ | ⟨n, r, hi, hc, hr, hd⟩)
    · simp at hk
    · simp at hk
    · exact ⟨n, hi, .inl hc⟩
    · have len := memRead_length hr
      obtain ⟨header, bad⟩ := (decodeReply_eq_lengthError r).mp hd
      obtain ⟨h2, h0, h1⟩ := (headerOk_iff r).mp header
      exact ⟨n, hi, .inr ⟨r, hc, hr, len ▸ h2, h0, h1, (lengthOk_eq_false len).mp bad⟩⟩
  · rintro ⟨n, hi, hc | ⟨r, hc, hr, h2, h0, h1, bad⟩⟩
    · exact .inr (.inr (.inl ⟨n, hi, hc, rfl⟩))
    · have len := memRead_length hr
      exact .inr (.inr (.inr ⟨n, r, hi, hc, hr, (decodeReply_eq_lengthError r).mpr
        ⟨(headerOk_iff r).mpr ⟨len ▸ h2, h0, h1⟩, (lengthOk_eq_false len).mpr bad⟩⟩))

/-- Settles O23: only `Decode`'s third check answers ChecksumMismatch. -/
theorem checksumMismatchExactlyWhen : Obligations.ChecksumMismatchExactlyWhen := by
  intro i s
  rw [exec_err_iff, Raises]
  constructor
  · rintro (⟨-, -, hk⟩ | ⟨-, -, -, hk⟩ | ⟨-, -, -, hk⟩ | ⟨n, r, hi, hc, hr, hd⟩)
    · simp at hk
    · simp at hk
    · simp at hk
    · have len := memRead_length hr
      obtain ⟨header, length, bad⟩ := (decodeReply_eq_checksumMismatch r).mp hd
      obtain ⟨-, h0, h1⟩ := (headerOk_iff r).mp header
      obtain ⟨h6, h4⟩ := (lengthOk_iff r).mp length
      exact ⟨n, r, hi, hc, hr, len ▸ h6, h0, h1, len ▸ h4, (checksumOk_eq_false len).mp bad⟩
  · rintro ⟨n, r, hi, hc, hr, h6, h0, h1, h4, bad⟩
    have len := memRead_length hr
    exact .inr (.inr (.inr ⟨n, r, hi, hc, hr, (decodeReply_eq_checksumMismatch r).mpr
      ⟨(headerOk_iff r).mpr ⟨by omega, h0, h1⟩, (lengthOk_iff r).mpr ⟨len ▸ h6, len ▸ h4⟩,
        (checksumOk_eq_false len).mpr bad⟩⟩))

/-- Of the instructions ENC takes, only a long Write has no frame. -/
theorem sent_without_frame_iff (i : Instr) :
    (direction i = .sent ∧ i.wf = false) ↔ ∃ id addr pay, i = .write id addr pay ∧ 252 < pay.length := by
  constructor
  · rintro ⟨sent, hw⟩
    cases i with
    | ping id => simp [Instr.wf, Instr.payloadFits, Instr.countMinimal, Instr.countMaximal] at hw
    | read id addr rlen =>
      simp [Instr.wf, Instr.payloadFits, Instr.countMinimal, Instr.countMaximal] at hw
    | write id addr pay =>
      rw [Bool.eq_false_iff, Ne, write_wf_iff, not_le] at hw
      exact ⟨id, addr, pay, rfl, hw⟩
    | reply n => simp [direction] at sent
  · rintro ⟨id, addr, pay, rfl, h⟩
    exact ⟨rfl, write_oversize h⟩

/-- Settles O24: Oversize and BufferTooSmall are the two errors of ENC, and `Decode` answers neither. -/
theorem encErrorsExactlyWhen : Obligations.EncErrorsExactlyWhen := by
  intro i s
  rw [exec_err_iff, exec_err_iff, Raises, Raises, ← sent_without_frame_iff]
  constructor
  · constructor
    · rintro (⟨sent, hw, -⟩ | ⟨-, -, -, hk⟩ | ⟨-, -, -, hk⟩ | ⟨-, r, -, -, -, hd⟩)
      · exact ⟨sent, hw⟩
      · simp at hk
      · simp at hk
      · exact absurd hd (decodeReply_ne_encError r).1
    · exact fun ⟨sent, hw⟩ => .inl ⟨sent, hw, rfl⟩
  · constructor
    · rintro (⟨-, -, hk⟩ | ⟨sent, hw, hc, -⟩ | ⟨-, -, -, hk⟩ | ⟨-, r, -, -, -, hd⟩)
      · simp at hk
      · exact ⟨sent, hw, hc⟩
      · simp at hk
      · exact absurd hd (decodeReply_ne_encError r).2
    · exact fun ⟨sent, hw, hc⟩ => .inr (.inl ⟨sent, hw, hc, rfl⟩)

/-! ## Faults -/

/-- A range inside BUF holds a byte with no value exactly when DEC of it faults. -/
theorem exec_reply_fault_iff (n : Nat) (s : State) (f : Fault) :
    exec (.reply n) s = .fault f ↔
      f = .noValue ∧ n ≤ s.cfg.cap ∧ ∃ a < n, readByte s.buf a = none := by
  have unwritten_iff : (∃ a < n, readByte s.buf a = none) ↔ memRead s.buf 0 n = none := by
    rw [memRead_eq_none]
    simp only [Nat.zero_add]
  rw [unwritten_iff]
  rcases exec_reply_cases n s with ⟨hc, he⟩ | ⟨hc, hr, he⟩ | ⟨r, k, -, hr, -, he⟩ |
    ⟨r, rep, -, hr, -, he⟩ <;> rw [he]
  · simp [hc]
  · simp [hc, hr, eq_comm]
  · simp [hr]
  · simp [hr]

theorem exec_ne_refused (i : Instr) (s : State) (r : Refusal) : exec i s ≠ .refused r := by
  cases hd : direction i with
  | sent =>
    obtain ⟨id, hid⟩ := servoId_of_sent hd
    simp [exec_of_sent hid]
  | received =>
    cases i with
    | reply n =>
      rcases exec_reply_cases n s with ⟨-, he⟩ | ⟨-, -, he⟩ | ⟨_, _, -, -, -, he⟩ |
        ⟨_, _, -, -, -, he⟩ <;> simp [he]
    | _ => simp [direction] at hd

/-- Settles O25: ENC always answers a next state, and DEC stops over a byte with no value alone. -/
theorem onlyUnwrittenBytesFault : Obligations.OnlyUnwrittenBytesFault := by
  intro i s
  refine ⟨fun f => ?_, exec_ne_refused i s⟩
  cases hd : direction i with
  | sent =>
    obtain ⟨id, hid⟩ := servoId_of_sent hd
    refine iff_of_false (by simp [exec_of_sent hid]) ?_
    rintro ⟨-, n, rfl, -⟩
    simp [direction] at hd
  | received =>
    cases i with
    | reply n => simp [exec_reply_fault_iff]
    | _ => simp [direction] at hd

/-! ## What DEC changes and what it reads -/

/-- Settles O26: each end of DEC changes RES and the window's mark alone. -/
theorem decLeavesTheRestAlone : Obligations.DecLeavesTheRestAlone := by
  intro n s t h
  rcases exec_reply_cases n s with ⟨-, he⟩ | ⟨-, -, he⟩ | ⟨r, k, -, -, -, he⟩ |
    ⟨r, rep, -, -, -, he⟩ <;> rw [he] at h
  · obtain rfl := Host.Outcome.next.inj h
    exact ⟨rfl, fun _ => rfl⟩
  · simp at h
  · obtain rfl := Host.Outcome.next.inj h
    exact ⟨rfl, fun _ => rfl⟩
  · obtain rfl := Host.Outcome.next.inj h
    exact ⟨rfl, fun _ => rfl⟩

/-- Settles O27: equal bytes below `n` are an equal range, and which end DEC takes depends on that
range, `n` and CAP alone. -/
theorem decReadsOnlyItsRange : Obligations.DecReadsOnlyItsRange := by
  intro n s s' cap same
  have range : memRead s.buf 0 n = memRead s'.buf 0 n :=
    memRead_congr fun j hj => by rw [Nat.zero_add]; exact same j hj
  rcases exec_reply_cases n s with ⟨hc, he⟩ | ⟨hc, hr, he⟩ | ⟨r, k, hc, hr, hd, he⟩ |
    ⟨r, rep, hc, hr, hd, he⟩ <;> rw [he] <;> rw [cap] at hc
  · refine ⟨fun t h => ⟨_, exec_reply_aboveCap hc, ?_⟩, fun f h => by simp at h⟩
    rw [← Host.Outcome.next.inj h]
    rfl
  · refine ⟨fun t h => by simp at h, fun f h => ?_⟩
    rw [← h, exec_reply_unwritten hc (range ▸ hr)]
  · refine ⟨fun t h => ⟨_, exec_reply_rejects hc (range ▸ hr) hd, ?_⟩, fun f h => by simp at h⟩
    rw [← Host.Outcome.next.inj h]
    rfl
  · refine ⟨fun t h => ⟨_, exec_reply_accepts hc (range ▸ hr) hd, ?_⟩, fun f h => by simp at h⟩
    rw [← Host.Outcome.next.inj h]
    rfl

/-! ## Replies that are accepted -/

/-- Bytes that pass the three checks decode to the reply at its fixed offsets. -/
theorem decodeReply_of_checks {r : List Byte} {n : Nat} (hl : r.length = n) (h0 : byteAt r 0 = 0xFF)
    (h1 : byteAt r 1 = 0xFF) (h6 : 6 ≤ n) (h4 : (byteAt r 3).toNat + 4 = n)
    (hsum : csum (slice r 2 (n - 1)) = byteAt r (n - 1)) :
    decodeReply r =
      .ok { servoId := byteAt r 2, status := byteAt r 4, data := slice r 5 (n - 1) } := by
  subst hl
  exact (decodeReply_eq_ok _ _).mpr ⟨(headerOk_iff r).mpr ⟨by omega, h0, h1⟩,
    (lengthOk_iff r).mpr ⟨h6, h4⟩, (checksumOk_iff r).mpr hsum, rfl⟩

/-- Settles O20: the checks pass, and the window is the range from offset 5 to before the checksum. -/
theorem goodReplyDecodes : Obligations.GoodReplyDecodes := by
  intro n s r hc hr h0 h1 h6 h4 hsum
  have decoded := decodeReply_of_checks (memRead_length hr) h0 h1 h6 h4 hsum
  exact ⟨_, exec_reply_accepts hc hr decoded, rfl, rfl, memRead_window hr h6, by omega⟩

/-- Bytes laid out as a reply, whatever their checksum byte is (R66). -/
def replyBytes (id len status : Byte) (data : List Byte) (c : Byte) : List Byte :=
  [0xFF, 0xFF, id, len, status] ++ data ++ [c]

@[simp] theorem replyBytes_length (id len status : Byte) (data : List Byte) (c : Byte) :
    (replyBytes id len status data c).length = 6 + data.length := by
  simp [replyBytes]
  omega

/-- The data of a reply stands between its status and its checksum byte. -/
theorem slice_replyBytes (id len status : Byte) (data : List Byte) (c : Byte) :
    slice (replyBytes id len status data c) 5 (6 + data.length - 1) = data := by
  rw [show 6 + data.length - 1 = 5 + data.length by omega]
  simp [slice, replyBytes]

theorem replyBytes_lengthByte (id status : Byte) {len : Byte} {data : List Byte} (c : Byte)
    (hlen : len.toNat = data.length + 2) :
    (byteAt (replyBytes id len status data c) 3).toNat + 4 = 6 + data.length := by
  change len.toNat + 4 = _
  omega

theorem replyBytes_closed (id len status : Byte) (data : List Byte) (c : Byte) :
    replyBytes id len status data c = [0xFF, 0xFF] ++ ([id, len, status] ++ data) ++ [c] := rfl

/-- A reply with the right checksum decodes to what it was made of. -/
theorem decodeReply_replyBytes (id status : Byte) {len : Byte} {data : List Byte}
    (hlen : len.toNat = data.length + 2) :
    decodeReply (replyBytes id len status data (csum ([id, len, status] ++ data))) =
      .ok { servoId := id, status := status, data := data } := by
  obtain ⟨covered, last⟩ :=
    slice_closed (replyBytes_closed id len status data (csum ([id, len, status] ++ data)))
  rw [replyBytes_length] at covered last
  rw [decodeReply_of_checks (replyBytes_length ..) rfl rfl (by omega)
    (replyBytes_lengthByte id status _ hlen) (by rw [covered, last]), slice_replyBytes]
  rfl

/-- A reply with another byte in the checksum's place is rejected. -/
theorem decodeReply_wrong_checksum (id status : Byte) {len c : Byte} {data : List Byte}
    (hlen : len.toNat = data.length + 2) (hne : csum ([id, len, status] ++ data) ≠ c) :
    decodeReply (replyBytes id len status data c) = .error .checksumMismatch := by
  obtain ⟨covered, last⟩ := slice_closed (replyBytes_closed id len status data c)
  rw [replyBytes_length] at covered last
  have header : headerOk (replyBytes id len status data c) = true :=
    (headerOk_iff _).mpr ⟨by rw [replyBytes_length]; omega, rfl, rfl⟩
  have length : lengthOk (replyBytes id len status data c) = true :=
    (lengthOk_iff _).mpr ⟨by rw [replyBytes_length]; omega,
      by rw [replyBytes_length, replyBytes_lengthByte id status c hlen]⟩
  exact (decodeReply_eq_checksumMismatch _).mpr ⟨header, length,
    (checksumOk_eq_false (replyBytes_length ..)).mpr (by rwa [covered, last])⟩

/-- Settles O28: the bytes decode to the reply they are made of, and the window is their data. -/
theorem wellFormedReplyRoundTrips : Obligations.WellFormedReplyRoundTrips := by
  intro id status len d s hlen hc hr
  have data := memRead_window (r := replyBytes id len status d _) hr (by omega)
  rw [slice_replyBytes id len status d, Nat.add_sub_cancel_left] at data
  refine ⟨?_, data⟩
  rw [exec_reply_accepts hc hr (decodeReply_replyBytes id status hlen), acceptReply, minReply,
    Nat.add_sub_cancel_left]

/-- Settles O30: the checksum kept is that of the data before the change, which is another. -/
theorem flippedDataByteIsMismatch : Obligations.FlippedDataByteIsMismatch := by
  intro id status len b b' d e s hlen hne hc hr
  have changed : csum ([id, len, status] ++ (d ++ b' :: e)) ≠
      csum ([id, len, status] ++ (d ++ b :: e)) := by
    rw [← List.append_assoc, ← List.append_assoc]
    exact checksumSeesOneChangedByte _ _ _ _ hne.symm
  refine exec_reply_rejects hc hr (decodeReply_wrong_checksum id status ?_ changed)
  rw [List.length_append, List.length_cons]
  omega

/-- Settles O29: an instruction frame passes the three checks of `Decode`. -/
theorem encodedFrameDecodes : Obligations.EncodedFrameDecodes := by
  intro i s t len id h hid he hres
  obtain ⟨id', -, hw, hc, rfl, rfl⟩ := exec_encOk h he hres
  obtain ⟨h0, h1⟩ := sent_header h
  obtain ⟨h6, -⟩ := sent_length h hw
  obtain ⟨body, closed⟩ := encode_of_sent h
  have decoded := decodeReply_of_checks rfl h0 h1 h6 (sent_lengthByte h hw)
    (by rw [closed, framed_checksum])
  obtain rfl : id = byteAt (encode i) 2 := Option.some.inj (hid.symm.trans (sent_id h))
  exact exec_reply_accepts (s := writeFrame _ _ s) hc (memRead_memWrite_self _ _ _) decoded

/-! ## A command issued twice -/

/-- In canonical form, writing a frame twice leaves what writing it once leaves. -/
theorem writeFrame_writeFrame (id : Byte) (f : List Byte) {s : State} (h : s.buf.wf = true) :
    writeFrame id f (writeFrame id f s) = writeFrame id f s := by
  have buf : memWrite (memWrite s.buf 0 f) 0 f = memWrite s.buf 0 f :=
    memWrite_of_memRead (memWrite_wf 0 f h) (memRead_memWrite_self _ _ _)
  have marked (m d : Bool) : (m || d || d) = (m || d) := by cases m <;> cases d <;> rfl
  rw [writeFrame, writeFrame_buf, buf, writeFrame_marked, marked]
  rfl

/-- Settles O33: after each end of a command the same condition holds again, and the same end changes
nothing more. -/
theorem commandsAreIdempotent : Obligations.CommandsAreIdempotent := by
  intro i s t wf h
  rcases exec_cases h with ⟨sent, hw, rfl⟩ | ⟨sent, hw, hc, rfl⟩ | ⟨sent, hw, hc, id, hid, rfl⟩ |
    ⟨n, rfl, hc, rfl⟩ | ⟨n, r, k, rfl, hc, hr, hd, rfl⟩ | ⟨n, r, rep, rfl, hc, hr, hd, rfl⟩
  · exact exec_oversize sent hw _
  · exact exec_bufferTooSmall sent hw hc
  · rw [exec_sent_fits (s := writeFrame id (encode i) s) hid hw hc, writeFrame_writeFrame id _ wf]
  · exact exec_reply_aboveCap hc
  · exact exec_reply_rejects hc hr hd
  · exact exec_reply_accepts hc hr hd

end Sys2Proof.Machine

/-! PROOFS. The host's access to the block, its steps one by one, and reset (`10_state.md` sections 5 to
9, `70_reset_and_hazards.md`). -/

namespace Sys2Proof.Machine

/-! ## Loads and stores -/

/-- Settles O34: what a write leaves at each offset, and the bytes written read back. -/
theorem storeThenLoadReturnsBytes : Obligations.StoreThenLoadReturnsBytes := by
  intro off v s hin
  refine ⟨{ s with buf := memWrite s.buf off v, windowLive := false },
    hostStore_eq_next.mpr ⟨hin, rfl⟩, rfl, by simp [SameHost], rfl,
    hostLoad_eq_next.mpr ⟨hin, memRead_memWrite_self _ _ _, rfl⟩, fun a outside => ?_⟩
  dsimp only
  rw [readByte_memWrite, if_neg (by omega)]

theorem hostStore_outside {off : Nat} {v : List Byte} {s : State} (h : s.cfg.cap < off + v.length) :
    hostStore off v s = .fault .outsideBuf := by
  rw [hostStore, if_neg (Nat.not_le.mpr h)]

theorem hostLoad_outside {off k : Nat} {s : State} (h : s.cfg.cap < off + k) :
    hostLoad off k s = .fault .outsideBuf := by
  rw [hostLoad, if_neg (Nat.not_le.mpr h)]

/-- A load inside BUF stops exactly on a byte with no value. -/
theorem hostLoad_noValue_iff {off k : Nat} {s : State} (h : off + k ≤ s.cfg.cap) :
    hostLoad off k s = .fault .noValue ↔ ∃ j < k, readByte s.buf (off + j) = none := by
  rw [← memRead_eq_none, hostLoad, if_pos h]
  cases memRead s.buf off k with
  | none => simp
  | some bs => simp

/-- Settles O35: outside BUF neither access looks at a byte, inside a load asks for every value. -/
theorem accessOutsideOrUnwrittenFaults : Obligations.AccessOutsideOrUnwrittenFaults :=
  fun _ _ _ _ => ⟨hostStore_outside, hostLoad_outside, hostLoad_noValue_iff⟩

/-! ## The window -/

theorem window_stale {s : State} {id status : Byte} {doff dlen : Nat}
    (hres : s.res = .decOk id status doff dlen) (dead : s.windowLive = false) :
    runHostStep .window s = .fault .staleWindow := by
  simp [runHostStep, readWindow, hres, dead, keepLoaded]

/-- RES has a window only as DecOk. -/
theorem window_noSuchField {s : State}
    (h : ∀ id status doff dlen, s.res ≠ .decOk id status doff dlen) :
    runHostStep .window s = .fault .noSuchField := by
  cases hres : s.res with
  | decOk id status doff dlen => exact absurd hres (h id status doff dlen)
  | idle => simp [runHostStep, readWindow, hres, keepLoaded]
  | encOk len => simp [runHostStep, readWindow, hres, keepLoaded]
  | err k => simp [runHostStep, readWindow, hres, keepLoaded]

theorem sent_res_ne_decOk {i : Instr} {s t : State} (h : direction i = .sent)
    (he : exec i s = .next t) (id status : Byte) (doff dlen : Nat) :
    t.res ≠ .decOk id status doff dlen := by
  obtain ⟨id, -, ⟨-, rfl⟩ | ⟨-, -, rfl⟩ | ⟨-, -, rfl⟩⟩ := exec_sent_cases h he <;> simp

/-- Settles O37: a store leaves DecOk with a dead window, ENC leaves no DecOk. -/
theorem windowDiesWithTheNextWrite : Obligations.WindowDiesWithTheNextWrite := by
  refine ⟨fun off v s t id status doff dlen hres hs => ?store, fun i s t sent he => ?enc⟩
  case store =>
    obtain ⟨-, rfl⟩ := hostStore_eq_next.mp hs
    exact window_stale hres rfl
  case enc => exact window_noSuchField (sent_res_ne_decOk sent he)

/-! ## RES -/

/-- Settles O38: for each shape of RES, field by field. -/
theorem resultFieldsByShape : Obligations.ResultFieldsByShape := by
  refine fun s => ⟨rfl, fun f hres => ?idle, fun f k hres => ?err, fun f len hres => ?encOk,
    fun f id status doff dlen hres => ?decOk⟩
  all_goals
    rw [runHostStep, readResult, hres]
    cases f <;> rfl

/-! ## Quiet steps -/

/-- The block is the same before and after: BUF, RES and the window's mark. -/
def SameBlock (s t : State) : Prop :=
  t.buf = s.buf ∧ t.res = s.res ∧ t.windowLive = s.windowLive

theorem keepLoaded_sameBlock {x : Run (List Byte)} {s t : State}
    (hx : ∀ u bs, x = .next (u, bs) → u = s) (h : keepLoaded x = .next t) : SameBlock s t := by
  obtain ⟨⟨u, bs⟩, answered, ht⟩ := andThen_eq_next.mp h
  obtain rfl := hx u bs answered
  obtain rfl := Host.Outcome.next.inj ht
  exact ⟨rfl, rfl, rfl⟩

theorem hostLoad_state {off k : Nat} (s u : State) (bs : List Byte)
    (h : hostLoad off k s = .next (u, bs)) : u = s := by
  obtain ⟨-, -, same⟩ := hostLoad_eq_next.mp h
  exact same

theorem readWindow_state (s u : State) (bs : List Byte) (h : readWindow s = .next (u, bs)) : u = s := by
  obtain ⟨_, _, _, _, -, -, load⟩ := readWindow_eq_next.mp h
  exact hostLoad_state s u bs load

theorem transmit_sameBlock {s t : State} (h : transmit s = .next t) : SameBlock s t := by
  obtain ⟨⟨u, bs⟩, loaded, ht⟩ := andThen_eq_next.mp h
  obtain ⟨_, -, -, -, rfl⟩ := loadFrame_eq_next.mp loaded
  obtain rfl := Host.Outcome.next.inj ht
  exact ⟨rfl, rfl, rfl⟩

theorem readResult_sameBlock {f : ResField} {s t : State} (h : readResult f s = .next t) :
    SameBlock s t := by
  unfold readResult at h
  split at h
  · obtain rfl := Host.Outcome.next.inj h
    exact ⟨rfl, rfl, rfl⟩
  · simp at h

theorem enqueue_sameBlock {c : MoveCommand} {s t : State} (h : enqueue c s = .next t) :
    SameBlock s t := by
  unfold enqueue at h
  split at h
  · simp at h
  · split at h <;> obtain rfl := Host.Outcome.next.inj h <;> exact ⟨rfl, rfl, rfl⟩

theorem enqueueRelative_sameBlock {id : Byte} {delta : Int} {tail : MoveTail} {s t : State}
    (h : enqueueRelative id delta tail s = .next t) : SameBlock s t := by
  unfold enqueueRelative at h
  split at h
  · exact enqueue_sameBlock h
  · simp at h

theorem readCached_sameBlock {id : Byte} {f : Field} {s t : State} (h : readCached id f s = .next t) :
    SameBlock s t := by
  unfold readCached at h
  split at h
  · obtain rfl := Host.Outcome.next.inj h
    exact ⟨rfl, rfl, rfl⟩
  · simp at h

/-- Settles O39: each of these steps only loads from BUF, or changes the host alone. -/
theorem quietStepsLeaveTheBlockAlone : Obligations.QuietStepsLeaveTheBlockAlone := by
  intro h s t quiet he
  suffices block : SameBlock s t by
    obtain ⟨buf, res, live⟩ := block
    refine ⟨buf, res, live, ?_⟩
    rintro rfl
    rw [← Host.Outcome.next.inj he]
  rcases quiet with rfl | rfl | rfl | rfl | ⟨off, k, rfl⟩ | ⟨f, rfl⟩ | ⟨id, g, x, rfl⟩ |
    ⟨id, d, x, rfl⟩ | ⟨id, f, rfl⟩
  · exact transmit_sameBlock he
  · exact keepLoaded_sameBlock (readWindow_state s) he
  · rw [← Host.Outcome.next.inj he]
    exact ⟨rfl, rfl, rfl⟩
  · rw [← Host.Outcome.next.inj he]
    exact ⟨rfl, rfl, rfl⟩
  · exact keepLoaded_sameBlock (hostLoad_state s) he
  · exact readResult_sameBlock he
  · exact enqueue_sameBlock he
  · exact enqueueRelative_sameBlock he
  · exact readCached_sameBlock he

/-! ## Reset and the step -/

/-- Settles O40: the reset of the block by what it does to each field, and nothing is listed in BUF. -/
theorem resetHoldsNothing : Obligations.ResetHoldsNothing :=
  ⟨rfl, fun _ => ⟨rfl, rfl, fun _ => rfl⟩,
    fun s => ⟨resetBlock s, rfl, resetBlock_res s, by simp [SameHost], resetBlock_marked s,
      fun _ => rfl⟩⟩

theorem step_cons {s : State} {h : HostStep} {rest : List HostStep} (hp : s.program = h :: rest) :
    step s = runHostStep h { s with program := rest } := by
  rw [step, hp]

/-- Settles O41: the step is the next host step's meaning, and a frame's is exec of what it decodes to. -/
theorem stepRunsTheDecodedInstruction : Obligations.StepRunsTheDecodedInstruction := by
  refine ⟨fun s i rest hp => ?issue, fun s frame i rest hp hd => ?code, fun s hp => ?ended⟩
  case issue => rw [step_cons hp, runHostStep]
  case code => rw [step_cons hp, runHostStep, runCode, hd]
  case ended => rw [step, hp]

/-- Settles O42: a frame step whose bytes do not decode, or decode with bytes left over, is refused. -/
theorem unknownInstructionIsRefused : Obligations.UnknownInstructionIsRefused := by
  refine fun s frame rest hp => ⟨fun e hd => ?undecoded, fun i c tail hd => ?leftOver⟩
  case undecoded => rw [step_cons hp, runHostStep, runCode, hd]
  case leftOver => rw [step_cons hp, runHostStep, runCode, hd]

end Sys2Proof.Machine

/-! PROOFS. What `send` does with each answer of the channel, and the ids it refuses
(`45_host_context.md` sections 1 to 3). -/

namespace Sys2Proof.Machine

/-! ## The channel's answers -/

/-- A channel that takes as many bytes as it is offered takes them all, and that is no failure. -/
theorem channelWrite_accepts {k : Nat} {bs : List Byte} (h : bs.length ≤ k) (s : State) :
    channelWrite (.accepts k) bs s = ({ s with wireOut := s.wireOut ++ bs }, none) := by
  rw [channelWrite, List.take_of_length_le h, decide_eq_false (Nat.not_lt.mpr h), Bool.and_false]
  rfl

/-- Whatever a write does, some bytes went out, and it failed or not. -/
theorem channelWrite_cases (x : WriteAnswer) (bs : List Byte) (s : State) :
    ∃ sent, channelWrite x bs s = ({ s with wireOut := s.wireOut ++ sent }, some .transportWrite) ∨
      ((∀ k, x ≠ .fails k) ∧ channelWrite x bs s = ({ s with wireOut := s.wireOut ++ sent }, none)) := by
  cases x with
  | fails k => exact ⟨bs.take k, .inl rfl⟩
  | accepts k =>
    refine ⟨bs.take k, ?_⟩
    rw [channelWrite]
    split
    · exact .inl rfl
    · exact .inr ⟨fun _ => WriteAnswer.noConfusion, rfl⟩

/-- A failed read may have deposited bytes, at most CAP of them. -/
theorem channelRead_fails (v : List Byte) (s : State) :
    channelRead (.fails v) s =
      .next ({ s with buf := memWrite s.buf 0 (v.take s.cfg.cap), windowLive := false },
        .error .transportRead) := by
  rw [channelRead, hostStore_eq_next.mpr ⟨by simp, rfl⟩, andThen_next]

/-! ## `send`, answer by answer -/

/-- The state in which a frame just encoded and loaded is offered to the channel, whose further answers
are `rest`. -/
def offering (id : Byte) (f : List Byte) (rest : List Transfer) (s : State) : State :=
  { writeFrame id f s with loaded := f, channel := rest }

section
variable {i : Instr} {id : Byte} {s : State} {x : Transfer} {rest : List Transfer}
  (hid : servoId i = some id) (h253 : id.toNat ≤ 253) (hw : i.wf = true)
  (hc : (encode i).length ≤ s.cfg.cap) (hx : s.channel = x :: rest)
include hid h253 hw hc hx

theorem send_of_write_error {t : State} {e : HostError}
    (h : channelWrite x.write (encode i) (offering id (encode i) rest s) = (t, some e)) :
    send i s = .next (t, .error e) := by
  unfold offering at h
  rw [send_fits hid h253 hw hc, exchange_writeFrame hc hx, h]

theorem send_of_write_done {t : State}
    (h : channelWrite x.write (encode i) (offering id (encode i) rest s) = (t, none)) :
    send i s = channelRead x.read t := by
  unfold offering at h
  rw [send_fits hid h253 hw hc, exchange_writeFrame hc hx, h]

theorem send_of_write_accepts {k : Nat} (h : x.write = .accepts k) (hk : (encode i).length ≤ k) :
    send i s = channelRead x.read
      { offering id (encode i) rest s with wireOut := s.wireOut ++ encode i } :=
  send_of_write_done hid h253 hw hc hx (by rw [h, channelWrite_accepts hk]; rfl)

/-- A transport failure of either kind reaches the caller as such and uses one answer of the channel. -/
theorem send_of_transport_failure
    (h : (∃ k, x.write = .fails k) ∨ ∃ v, x.read = .fails v) :
    ∃ t e, send i s = .next (t, .error e) ∧ isTransport e = true ∧ t.channel = rest := by
  obtain ⟨sent, failed | ⟨taken, finished⟩⟩ :=
    channelWrite_cases x.write (encode i) (offering id (encode i) rest s)
  · exact ⟨_, _, send_of_write_error hid h253 hw hc hx failed, rfl, rfl⟩
  · rcases h with ⟨k, hk⟩ | ⟨v, hv⟩
    · exact absurd hk (taken k)
    · have answered := send_of_write_done hid h253 hw hc hx finished
      rw [hv, channelRead_fails] at answered
      exact ⟨_, _, answered, rfl, rfl⟩

end

theorem SameHost.channel {s t : State} (h : SameHost s t) : t.channel = s.channel := by
  obtain ⟨-, -, -, -, channel, -⟩ := h
  exact channel

/-- Settles O48: the whole frame goes out, and the delivered bytes are stored and decoded. -/
theorem sendReturnsTheDecodedReply : Obligations.SendReturnsTheDecodedReply := by
  intro i id s k v rest hid h253 hw hc hx hk
  have taken := send_of_write_accepts hid h253 hw hc hx rfl hk
  obtain ⟨t, answered, host, buf⟩ := receiveReply_spec (v := v.take s.cfg.cap)
    (s := { offering id (encode i) rest s with wireOut := s.wireOut ++ encode i })
    (List.length_take_le _ _)
  exact ⟨t, taken.trans answered, host.wireOut, host.channel,
    by rw [buf, memRead_memWrite_self]⟩

/-- Settles O49: after a failed write nothing but ENC has touched BUF and RES, after a failed read RES is
still as the ENC left it. -/
theorem sendStopsAtTransportFailure : Obligations.SendStopsAtTransportFailure := by
  intro i id s x rest hid h253 hw hc hx
  refine ⟨fun k hk => ?write, fun k v hk hlen hv => ?read⟩
  case write =>
    have answered : send i s = .next ({ offering id (encode i) rest s with
        wireOut := s.wireOut ++ (encode i).take k }, .error .transportWrite) :=
      send_of_write_error hid h253 hw hc hx (by rw [hk]; rfl)
    exact ⟨_, answered, rfl, rfl, rfl, memRead_memWrite_self _ _ _,
      fun _ => readByte_writeFrame_after id s⟩
  case read =>
    have answered := send_of_write_accepts hid h253 hw hc hx hk hlen
    rw [hv, channelRead_fails] at answered
    exact ⟨_, answered, rfl, rfl, rfl⟩

/-- Settles O50: `send` to a single actuator answers, whether the frame fits or ENC raises. -/
theorem sendAlwaysReturns : Obligations.SendAlwaysReturns :=
  fun _ _ s hid h253 => send_returns hid h253 s

/-! ## Ids above 253 -/

@[simp] theorem thenOk_refused {α β : Type} (r : Refusal) (f : α → State → Run (Except HostError β)) :
    thenOk (.refused r) f = .refused r := rfl

@[simp] theorem conclude_refused {α : Type} (r : Refusal) (f : α → HostResult) :
    conclude (.refused r) f = .refused r := rfl

section
variable {id : Byte} (h : 253 < id.toNat)
include h

theorem send_refused {i : Instr} (hid : servoId i = some id) (s : State) :
    send i s = .refused .outsideExercisedSubset := by
  unfold send
  simp only [hid]
  rw [if_pos h]

theorem readData_refused (register count : Byte) (s : State) :
    readData id register count s = .refused .outsideExercisedSubset := by
  rw [readData, send_refused h rfl, thenOk_refused]

theorem readU8_refused (register : Byte) (s : State) :
    readU8 id register s = .refused .outsideExercisedSubset := by
  rw [readU8, readData_refused h, thenOk_refused]

theorem readU16_refused (register : Byte) (s : State) :
    readU16 id register s = .refused .outsideExercisedSubset := by
  rw [readU16, readData_refused h, thenOk_refused]

theorem readField_refused (f : Field) (s : State) :
    readField id f s = .refused .outsideExercisedSubset := by
  rw [readField, readU16_refused h, readU8_refused h, thenOk_refused, ite_self]

theorem enqueue_refused {c : MoveCommand} (hid : c.id = id) (s : State) :
    enqueue c s = .refused .outsideExercisedSubset := by
  rw [enqueue, hid, if_pos h]

theorem enqueueRelative_refused {s : State} (configured : findServo id s ≠ none) (delta : Int)
    (tail : MoveTail) : enqueueRelative id delta tail s = .refused .outsideExercisedSubset := by
  obtain ⟨info, found⟩ := Option.ne_none_iff_exists'.mp configured
  rw [enqueueRelative, found]
  exact enqueue_refused h rfl s

end

/-- Settles O51: each operation begins with a `send` or an enqueue to that id, and both refuse it; ENC
looks at no id. -/
theorem hostRefusesUnexercisedIds : Obligations.HostRefusesUnexercisedIds := by
  intro id s h
  refine ⟨fun i hid => ⟨send_refused h hid s, ?_, _, exec_of_sent hid s⟩, ?_⟩
  · rw [runHostStep, send_refused h hid, conclude_refused]
  · rintro operation (rfl | rfl | rfl | rfl | rfl | ⟨f, rfl⟩ | ⟨r, rfl⟩ | ⟨r, rfl⟩ | ⟨p, x, rfl⟩ |
      ⟨g, x, rfl⟩ | ⟨d, x, rfl, configured⟩)
    · rw [runHostStep, writeTorque, send_refused h rfl, conclude_refused]
    · rw [runHostStep, writeTorque, send_refused h rfl, conclude_refused]
    · rw [runHostStep, readTorque, readU8_refused h, conclude_refused]
    · rw [runHostStep, readField_refused h, conclude_refused]
    · rw [runHostStep, readField_refused h, conclude_refused]
    · rw [runHostStep, readField_refused h, conclude_refused]
    · rw [runHostStep, readU8_refused h, conclude_refused]
    · rw [runHostStep, readU16_refused h, conclude_refused]
    · rw [runHostStep, writePosition, send_refused h rfl, conclude_refused]
    · rw [runHostStep, enqueue_refused h rfl]
    · rw [runHostStep, enqueueRelative_refused h configured]

end Sys2Proof.Machine

/-! PROOFS. Register values, the queue of moves and the telemetry refresh (`45_host_context.md` sections
2 and 3). -/

namespace Sys2Proof.Machine

/-! ## Register values -/

theorem ofLe16_toNat (lo hi : Byte) : (ofLe16 lo hi).toNat = lo.toNat + 256 * hi.toNat := by
  have := lo.isLt
  have := hi.isLt
  rw [ofLe16, BitVec.toNat_ofNat]
  omega

/-- Settles O52: the two bytes are remainder and quotient by 256. -/
theorem payloadValuesAreLittleEndian : Obligations.PayloadValuesAreLittleEndian := by
  refine ⟨fun v => ⟨_, _, rfl, ?_⟩, ofLe16_toNat, by decide, by decide⟩
  have := v.isLt
  have low : (v.extractLsb' 0 8).toNat = v.toNat % 256 := by
    rw [BitVec.extractLsb'_toNat, Nat.shiftRight_zero]
  have high : (v.extractLsb' 8 8).toNat = v.toNat / 256 := by
    rw [BitVec.extractLsb'_toNat, Nat.shiftRight_eq_div_pow]
    omega
  refine ⟨low, high, BitVec.eq_of_toNat_eq ?_⟩
  rw [ofLe16_toNat, low, high]
  omega

@[simp] theorem thenOk_ok {α β : Type} (t : State) (a : α) (f : α → State → Run (Except HostError β)) :
    thenOk (.next (t, .ok a)) f = f a t := rfl

@[simp] theorem thenOk_error {α β : Type} (t : State) (e : HostError)
    (f : α → State → Run (Except HostError β)) :
    thenOk (.next (t, .error e)) f = .next (t, .error e) := rfl

/-- A Read that was answered, with status 0 where the host tests it, gives the reply's data. -/
theorem readData_of_reply {id register count : Byte} {s t : State} {rep : Reply}
    (status : t.cfg.readTestsStatus = true → rep.status = 0)
    (h : send (.read id register count) s = .next (t, .ok rep)) :
    readData id register count s = .next (t, .ok rep.data) := by
  rw [readData, h, thenOk_ok]
  cases tested : t.cfg.readTestsStatus with
  | false => rfl
  | true => simp [status tested]

/-- Settles O53: either read is one Read whose data is then looked at. -/
theorem registerReadsTakeFirstBytes : Obligations.RegisterReadsTakeFirstBytes := by
  refine fun id register s t rep status => ⟨fun h => ?u8, fun h => ?u16⟩
  case u8 => exact congrArg (fun x => thenOk x _) (readData_of_reply status h)
  case u16 => exact congrArg (fun x => thenOk x _) (readData_of_reply status h)

/-! ## The queue -/

theorem enqueue_pushes {c : MoveCommand} {s : State} (h253 : c.id.toNat ≤ 253)
    (room : s.queue.length < s.cfg.qcap) :
    enqueue c s =
      .next { s with queue := c :: s.queue, servos := trackGoal c s, hostRes := .done } := by
  rw [enqueue, if_neg (Nat.not_lt.mpr h253), if_pos room]

theorem enqueue_overflows {c : MoveCommand} {s : State} (h253 : c.id.toNat ≤ 253)
    (full : s.cfg.qcap ≤ s.queue.length) :
    enqueue c s = .next { s with hostRes := .error .commandOverflow } := by
  rw [enqueue, if_neg (Nat.not_lt.mpr h253), if_neg (Nat.not_lt.mpr full)]

/-- Settles O55: the queue's length against its capacity. -/
theorem enqueuePushesOneOrOverflows : Obligations.EnqueuePushesOneOrOverflows :=
  fun _ _ h253 => ⟨fun room => ⟨_, enqueue_pushes h253 room, rfl, rfl⟩, enqueue_overflows h253⟩

/-- The Euclidean remainder by 4096 is its own 16-bit value. -/
theorem newGoal_toNat (goal : Half) (delta : Int) :
    ((newGoal goal delta).toNat : Int) = ((goal.toNat : Int) + delta) % 4096 := by
  rw [newGoal, BitVec.toNat_ofNat]
  omega

/-- Settles O56: the move enqueued has the new goal as its target, and the source's sequence is
evaluated. -/
theorem relativeMoveWrapsEuclidean : Obligations.RelativeMoveWrapsEuclidean := by
  refine ⟨fun id delta tail s info found h253 room => ?_, by decide, by decide, by decide⟩
  have target := newGoal_toNat info.goal delta
  have moved : enqueueRelative id delta tail s =
      enqueue { id := id, target := newGoal info.goal delta, tail := tail } s := by
    rw [enqueueRelative, found]
  exact ⟨_, _, moved.trans (enqueue_pushes h253 room), rfl, target, by omega⟩

theorem writePosition_queue {id : Byte} {p : Half} {tail : MoveTail} {s t : State}
    {r : Except HostError Reply} (h : writePosition id p tail s = .next (t, r)) :
    t.queue = s.queue := send_queue h

/-- Settles O58: the tick pops what the enqueue pushed, and `send` leaves the queue as the pop left it. -/
theorem lastMoveQueuedIsFlushedFirst : Obligations.LastMoveQueuedIsFlushedFirst := by
  intro c s s' t h253 room pushed flushed
  have queue : s'.queue = c :: s.queue := by
    rw [← Host.Outcome.next.inj ((enqueue_pushes h253 room).symm.trans pushed)]
  rw [processQueue_cons queue] at flushed
  obtain ⟨⟨u, r⟩, written, concluded⟩ := andThen_eq_next.mp flushed
  have uqueue : u.queue = s.queue :=
    writePosition_queue (s := { s' with queue := s.queue }) written
  cases r <;>
  · obtain rfl := Host.Outcome.next.inj concluded
    exact ⟨uqueue, u, _, written, rfl⟩

/-! ## The telemetry refresh -/

/-- A register read whose one Read fails ends with that error. -/
theorem readField_of_send_error {id : Byte} {f : Field} {s t : State} {e : HostError}
    (h : send (.read id (fieldAddr s.cfg f) (if fieldWide s.cfg f then 2 else 1)) s =
      .next (t, .error e)) : readField id f s = .next (t, .error e) := by
  unfold readField
  split at h
  · rename_i wide
    rw [if_pos wide, readU16, readData, h, thenOk_error, thenOk_error]
  · rename_i narrow
    rw [if_neg narrow, readU8, readData, h, thenOk_error, thenOk_error, thenOk_error]

/-- Settles O59: the one Read of the position fails in the channel, and the refresh ends there. -/
theorem transportFailureLeavesValuesStale : Obligations.TransportFailureLeavesValuesStale := by
  intro prev s x rest h253 hcap hx failure
  obtain ⟨t, e, failed, transport, channel⟩ :=
    send_of_transport_failure (i := .read prev.id (fieldAddr s.cfg .position)
      (if fieldWide s.cfg .position then 2 else 1)) rfl h253 rfl hcap hx failure
  refine ⟨t, ?_, channel⟩
  rw [refreshServo, readField_of_send_error failed, andThen_next]
  exact if_pos transport

theorem fillField_error_value (f : Field) (prev info : ServoInfo) (e : HostError) (s : State) :
    (fillField f prev info (.error e) s).2 = setField info f (getField prev f) ∨
      (fillField f prev info (.error e) s).2 = setField info f (getField s.cfg.defaults f) := by
  have value : (fillField f prev info (.error e) s).2 = setField info f
      (if Config.fallbackToDefault s.freeCount then getField s.cfg.defaults f else getField prev f) := rfl
  rw [value]
  split
  · exact .inr rfl
  · exact .inl rfl

/-- The refresh goes on after a first read that did not fail in the channel. -/
theorem refreshServo_of_read {prev : ServoInfo} {s t : State} {r : Except HostError Half}
    (h : readField prev.id .position s = .next (t, r))
    (goesOn : ∀ e, r = .error e → isTransport e = false) :
    refreshServo prev s = refreshFields laterFields prev (fillField .position prev prev r t).2
      (fillField .position prev prev r t).1 := by
  rw [refreshServo, h, andThen_next]
  cases r with
  | ok v => rfl
  | error e =>
    dsimp only
    rw [goesOn e rfl]
    rfl

/-- Settles O60: each read's outcome goes through `fillField`, which overwrites that one field. -/
theorem failedFieldFallsBack : Obligations.FailedFieldFallsBack := by
  refine ⟨fun f fs prev info s t r h => ?later, fun prev s t r => refreshServo_of_read,
    fun f prev info v s => ?read, fun f prev info e s => ⟨fillField_error_value f prev info e s, rfl⟩⟩
  case later =>
    rw [refreshFields, h]
    rfl
  case read =>
    exact ⟨setField info f v, rfl, getField_setField_self info f v, setField_id info f v,
      setField_goal info f v, fun g => getField_setField_of_ne info v⟩

end Sys2Proof.Machine
